-- ==== Sys2Proof/Word.lean ====
section
/-! DEFINITION. The word types of the core (00_scope.md R1, R2; 30_encoding.md R61). -/

namespace Sys2Proof

/-- A lane: an unsigned 64-bit word (R1). -/
abbrev Lane := BitVec 64

/-- A byte of the staging buffer (R22). -/
abbrev Byte := BitVec 8

/-- A command word (R61). -/
abbrev CommandWord := BitVec 32

/-- A byte offset into the 4 KiB host register map (R40). -/
abbrev Offset := BitVec 12

/-- A whole state of 25 lanes; lane `i` is column `i mod 5`, row `i div 5` (R2). -/
abbrev Lanes := Vector Lane 25

/-- The 200 bytes of the staging buffer (R22). -/
abbrev Buffer := Vector Byte 200

/-- A block of RATE = 168 bytes (R3). -/
abbrev Block := Vector Byte 168

end Sys2Proof
end

