-- ==== Sys2Proof/Config.lean ====
section
/-! DEFINITION. What the platform chooses (the spec's OPEN parameters; 00_scope.md section 4). -/

namespace Sys2Proof.Config

/-- BASE_ADDR: where the platform places the register map (R40, D2). The spec leaves it open, so it
has no body and no claim can depend on its value (log 8). -/
opaque baseAddr : Nat

/-- The offset an absolute bus address has in the register map, if it lies in the map (R40): the map
is the 4 KiB from `baseAddr`. -/
def offsetOf (addr : Nat) : Option Offset :=
  if baseAddr ≤ addr ∧ addr < baseAddr + 0x1000 then some (BitVec.ofNat 12 (addr - baseAddr)) else none

end Sys2Proof.Config
end

