-- ==== Sys2Proof/Syntax.lean ====
section
/-! DEFINITION. The fifteen commands of KSC1 (30_encoding.md R63), one constructor per row of the
opcode table. An operand is the unsigned integer of R62. -/

namespace Sys2Proof

inductive Instr where
  | init
  | b2s (L : Nat)
  | s2b
  | xorrate
  | pad (r : Nat)
  | theta
  | rho
  | pi
  | chi
  | iota (ir : Nat)
  | round (ir : Nat)
  | permute
  | absorb
  | final (r : Nat)
  | squeeze
  deriving DecidableEq, Repr

end Sys2Proof
end

