-- ==== Sys2Proof/WellFormed.lean ====
section
/-! DEFINITION. Which instruction terms an encoding can hold: the operand field A has 8 bits, so an
operand is 0..255 (30_encoding.md R62). The narrower legal ranges of R62 are no matter of form: a
value outside them decodes, and the command faults. -/

namespace Sys2Proof

/-- The operand of a command, if it has one (R62, R63). -/
def Instr.operand? : Instr → Option Nat
  | .init => none
  | .b2s L => some L
  | .s2b => none
  | .xorrate => none
  | .pad r => some r
  | .theta => none
  | .rho => none
  | .pi => none
  | .chi => none
  | .iota ir => some ir
  | .round ir => some ir
  | .permute => none
  | .absorb => none
  | .final r => some r
  | .squeeze => none

/-- The operand fits the 8-bit field A (R62). -/
def Instr.wf (i : Instr) : Bool :=
  match i.operand? with
  | none => true
  | some a => decide (a < 256)

end Sys2Proof
end

