-- ==== Sys2Proof/Decode.lean ====
section
/-! DEFINITION. Decoding of command words, total and rejecting by name, the encoder, and the opcode
table (30_encoding.md R60 to R64). -/

namespace Sys2Proof

/-- Why a word is an illegal command (R60, R64). All three raise IllegalCommand. -/
inductive DecodeError where
  /-- The OP field is none of the fifteen opcodes. -/
  | unassignedOpcode
  /-- `w[31:16] ≠ 0`. -/
  | reservedNotZero
  /-- A command without an operand has `w[15:8] ≠ 0`. -/
  | operandNotZero
  deriving DecidableEq, Repr

/-- Field OP, `w[7:0]` (R61). -/
def opField (w : CommandWord) : Nat := (w.extractLsb' 0 8).toNat

/-- Field A, `w[15:8]`, zero-extended (R62). -/
def aField (w : CommandWord) : Nat := (w.extractLsb' 8 8).toNat

/-- Field RSV, `w[31:16]` (R61). -/
def rsvField (w : CommandWord) : Nat := (w.extractLsb' 16 16).toNat

/-- A command without an operand: RSV and then A must be zero (R60). -/
def bareCommand (w : CommandWord) (i : Instr) : Except DecodeError Instr :=
  if rsvField w ≠ 0 then .error .reservedNotZero
  else if aField w ≠ 0 then .error .operandNotZero
  else .ok i

/-- A command with the operand A: RSV must be zero (R60); any A decodes (R62). -/
def operandCommand (w : CommandWord) (command : Nat → Instr) : Except DecodeError Instr :=
  if rsvField w ≠ 0 then .error .reservedNotZero else .ok (command (aField w))

/-- The decode step of R60 over the opcode map of R63. -/
def decode (w : CommandWord) : Except DecodeError Instr :=
  match opField w with
  | 0x01 => bareCommand w .init
  | 0x02 => operandCommand w .b2s
  | 0x03 => bareCommand w .s2b
  | 0x04 => bareCommand w .xorrate
  | 0x05 => operandCommand w .pad
  | 0x10 => bareCommand w .theta
  | 0x11 => bareCommand w .rho
  | 0x12 => bareCommand w .pi
  | 0x13 => bareCommand w .chi
  | 0x14 => operandCommand w .iota
  | 0x15 => operandCommand w .round
  | 0x16 => bareCommand w .permute
  | 0x20 => bareCommand w .absorb
  | 0x21 => operandCommand w .final
  | 0x22 => bareCommand w .squeeze
  | _ => .error .unassignedOpcode

/-- The opcode of a command (R63). -/
def Instr.opcode : Instr → Nat
  | .init => 0x01
  | .b2s _ => 0x02
  | .s2b => 0x03
  | .xorrate => 0x04
  | .pad _ => 0x05
  | .theta => 0x10
  | .rho => 0x11
  | .pi => 0x12
  | .chi => 0x13
  | .iota _ => 0x14
  | .round _ => 0x15
  | .permute => 0x16
  | .absorb => 0x20
  | .final _ => 0x21
  | .squeeze => 0x22

/-- The word of a command: `w = (a << 8) OR OP`, with `a = 0` where there is no operand (R63). -/
def encode (i : Instr) : CommandWord :=
  (BitVec.ofNat 32 (i.operand?.getD 0) <<< 8) ||| BitVec.ofNat 32 i.opcode

/-- One row of the opcode map of R63. -/
structure OpcodeRow where
  mnemonic : String
  matchBits : CommandWord
  mask : CommandWord
  hasOperand : Bool
  deriving DecidableEq, Repr

/-- The opcode map of R63, row by row. -/
def opcodeTable : List OpcodeRow := [
  ⟨"INIT", 0x00000001, 0xFFFFFFFF, false⟩,
  ⟨"B2S", 0x00000002, 0xFFFF00FF, true⟩,
  ⟨"S2B", 0x00000003, 0xFFFFFFFF, false⟩,
  ⟨"XORRATE", 0x00000004, 0xFFFFFFFF, false⟩,
  ⟨"PAD", 0x00000005, 0xFFFF00FF, true⟩,
  ⟨"THETA", 0x00000010, 0xFFFFFFFF, false⟩,
  ⟨"RHO", 0x00000011, 0xFFFFFFFF, false⟩,
  ⟨"PI", 0x00000012, 0xFFFFFFFF, false⟩,
  ⟨"CHI", 0x00000013, 0xFFFFFFFF, false⟩,
  ⟨"IOTA", 0x00000014, 0xFFFF00FF, true⟩,
  ⟨"ROUND", 0x00000015, 0xFFFF00FF, true⟩,
  ⟨"PERMUTE", 0x00000016, 0xFFFFFFFF, false⟩,
  ⟨"ABSORB", 0x00000020, 0xFFFFFFFF, false⟩,
  ⟨"FINAL", 0x00000021, 0xFFFF00FF, true⟩,
  ⟨"SQUEEZE", 0x00000022, 0xFFFFFFFF, false⟩]

/-- The mnemonic of a command (R63). -/
def Instr.mnemonic : Instr → String
  | .init => "INIT"
  | .b2s _ => "B2S"
  | .s2b => "S2B"
  | .xorrate => "XORRATE"
  | .pad _ => "PAD"
  | .theta => "THETA"
  | .rho => "RHO"
  | .pi => "PI"
  | .chi => "CHI"
  | .iota _ => "IOTA"
  | .round _ => "ROUND"
  | .permute => "PERMUTE"
  | .absorb => "ABSORB"
  | .final _ => "FINAL"
  | .squeeze => "SQUEEZE"

/-- The instruction the decoder reads from a word numbered as spec/opcode_table.json numbers its
bits. Every row has 32 bits, and a command is one word (R61). -/
def decodeTableWord (nbits w : Nat) : Option Instr :=
  (decode (BitVec.ofNat 32 (w % 2 ^ nbits))).toOption

end Sys2Proof
end

