-- ==== Sys2Proof/Machine/State.lean ====
section
/-! DEFINITION. The state of the core and of its host's side of the bus, as plain data, the reasons a
step can stop, and the state after reset (10_state.md, 60_exceptions.md, 70_reset_and_hazards.md). -/

namespace Sys2Proof.Machine

/-- STATUS.PH (R26). -/
inductive Phase where
  | idle
  | absorb
  | squeeze
  | fault
  deriving DecidableEq, Repr

/-- The five error conditions of 60_exceptions.md section 1 (R27). -/
inductive ErrorCode where
  | invalidArgument
  | padPrecondition
  | illegalCommand
  | phaseError
  | operandRange
  deriving DecidableEq, Repr

/-- One action of the host (log 1): an access to the register map, a reset, or a decision of the host
loop of R170. -/
inductive HostOp where
  /-- `MemWrite(off, width, v)`: `v` holds the written bytes, least significant first (R48). -/
  | write (off : Offset) (width : Nat) (v : BitVec 64)
  /-- `MemRead(off, width)`. -/
  | read (off : Offset) (width : Nat)
  /-- The reset event (R200). -/
  | reset
  /-- `while PH of (rr STATUS) = SQUEEZE: SQUEEZE; out <- out ++ (rbs 0, LASTK)` (R170, log 10). -/
  | squeezeLoop
  /-- `rbs 0, LASTK` of R170: the host reads LASTK, then that many bytes of BUF (log 10). -/
  | readOutput
  deriving DecidableEq, Repr

/-- What one host read returned, zero-extended to 64 bits, with the offset it read (log 3). -/
structure Response where
  off : Offset
  value : BitVec 64
  deriving DecidableEq, Repr

/-- The whole state. The first ten fields are the core's (10_state.md section 1); `pending` and
`responses` are the host's side (log 1, log 3). -/
structure State where
  /-- S[0..24] (R20). -/
  lanes : Lanes
  /-- BUF[0..199] (R22). -/
  buf : Buffer
  /-- STATUS.PH (R26). -/
  phase : Phase
  /-- STATUS.BUSY (R28). -/
  busy : Bool
  /-- STATUS.ERR; `none` is code 0 (R27). -/
  err : Option ErrorCode
  /-- OUTLEN (R29). -/
  outlen : BitVec 64
  /-- OUTREM (R30). -/
  outrem : BitVec 64
  /-- LASTK (R31). -/
  lastk : BitVec 64
  /-- ERRCMD (R32). -/
  errcmd : BitVec 64
  /-- The hidden round counter, which exists only during a permutation (R35, log 6). -/
  roundCounter : Option (BitVec 5)
  /-- The host's actions not yet issued, in issue order (R52, log 1). -/
  pending : List HostOp
  /-- What the host's reads have returned, oldest first (log 3). -/
  responses : List Response
  deriving DecidableEq, Repr

/-- Why the host gets no step (R189). An error of a command is no stop: it is a next state, the fault
state of R185. -/
inductive Fault where
  /-- Raised by a host access to a reserved offset, of a wrong width or misaligned (R42). Safe: the
  model stops where the platform's bus gives some response (log 4). -/
  | inadmissibleAccess
  /-- Raised by a host access other than a STATUS read while BUSY = 1 (R206). Safe: the model stops
  where an implementation stalls the bus or gives the access no meaning (log 5). -/
  | accessWhileBusy
  deriving DecidableEq, Repr

/-- Why an instruction has no meaning. -/
inductive Refusal where
  /-- An instruction whose meaning is not written yet, by its mnemonic. No arm of `exec` raises it:
  every command has its meaning. Safe: the model would stop. -/
  | notModelled (mnemonic : String)
  deriving DecidableEq, Repr

/-- The outcome of a command, a host action or a step. -/
abbrev Result := Host.Outcome State Fault Refusal

/-- The machine right after reset (R200): every register 0, phase IDLE, no permutation in progress.
The host has issued nothing and read nothing (log 1, log 3). -/
def State.reset : State where
  lanes := Vector.replicate 25 0
  buf := Vector.replicate 200 0
  phase := .idle
  busy := false
  err := none
  outlen := 0
  outrem := 0
  lastk := 0
  errcmd := 0
  roundCounter := none
  pending := []
  responses := []

end Sys2Proof.Machine
end

