-- ==== Sys2Proof/Machine/Operands.lean ====
section
/-! DEFINITION. The operand forms of the commands (30_encoding.md R62) and the signed reading of
OUTLEN (00_scope.md section 5). -/

namespace Sys2Proof.Machine

/-- The byte count L of B2S is at most the 200 bytes of a state (R62, R85). -/
def byteCountLegal (L : Nat) : Bool := decide (L ≤ 200)

/-- The tail length r of PAD and FINAL satisfies the padding precondition `r < 168` (R62, R142). -/
def tailLegal (r : Nat) : Bool := decide (r < 168)

/-- The round index of IOTA and ROUND, if it is one of 0..23 (R62). -/
def roundIndex? (ir : Nat) : Option (Fin 24) := if h : ir < 24 then some ⟨ir, h⟩ else none

/-- `sint64(v)`: the signed two's-complement reading of a 64-bit word, used for OUTLEN only. -/
def sint64 (v : BitVec 64) : Int := if v.getLsbD 63 then (v.toNat : Int) - 2 ^ 64 else v.toNat

end Sys2Proof.Machine
end

