-- ==== Sys2Proof/Machine/Ops.lean ====
section
/-! DEFINITION. The named operations over the lanes, the staging buffer and the fault state, shared by
the commands and the host accesses. -/

namespace Sys2Proof.Machine

/-- The vector whose entry `i` is `f i`. It is irreducible so that the elaborator never unrolls a vector
of 200 entries. Its one law is `tabulate_get`. -/
@[irreducible] def tabulate {α : Type} {n : Nat} (f : Fin n → α) : Vector α n := Vector.ofFn f

/-- Read lane `i` (R20). -/
def State.lane (s : State) (i : Fin 25) : Lane := s.lanes[i]

/-- Write the whole lane state. -/
def State.setLanes (s : State) (A : Lanes) : State := { s with lanes := A }

/-- Write lane `i` (R44). -/
def State.setLane (s : State) (i : Fin 25) (v : Lane) : State := { s with lanes := s.lanes.set i v }

/-- Read byte `j` of BUF (R22). -/
def State.bufByte (s : State) (j : Fin 200) : Byte := s.buf[j]

/-- Write the whole buffer. -/
def State.setBuf (s : State) (b : Buffer) : State := { s with buf := b }

/-- Write byte `j` of BUF (R43). -/
def State.setBufByte (s : State) (j : Fin 200) (v : Byte) : State := { s with buf := s.buf.set j v }

/-- `BUF[0..n-1]` as a byte sequence. -/
def State.bufHead (s : State) (n : Nat) : List Byte := s.buf.toList.take n

/-- `BUF[0..167]`, the block ABSORB and XORRATE read. -/
def State.rateBlock (s : State) : Block := tabulate fun j => s.buf[j.val]

/-- The buffer with its first 168 bytes replaced by `P` and `BUF[168..199]` kept. -/
def overlayBlock (b : Buffer) (P : Block) : Buffer :=
  tabulate fun j => if h : j.val < 168 then P[j.val] else b[j]

/-- `BUF[0..167] <- P`, with `BUF[168..199]` unchanged (R143, R160). -/
def State.setRateBlock (s : State) (P : Block) : State := { s with buf := overlayBlock s.buf P }

/-- `raise Fault(code, w)`: fault entry (R185). It writes exactly ERR, ERRCMD, PH and BUSY. There is
no vector, no saved program counter and no return: only reset leaves the fault state (R186). -/
def State.raiseFault (s : State) (code : ErrorCode) (w : CommandWord) : State :=
  { s with err := some code, errcmd := w.setWidth 64, phase := .fault, busy := false }

/-- A command in the fault state is ignored; otherwise it goes to the state its rule gives (R60,
R186, R187 (1)). -/
def unlessFault (s : State) (t : State) : Result :=
  match s.phase with
  | .fault => .next s
  | .idle => .next t
  | .absorb => .next t
  | .squeeze => .next t

/-- Reset (R200): every piece of the core's state takes its reset value, whatever was in progress. It
is the one way out of the fault state (R186). The host's own side is not the core's state and stays
(log 13). -/
def State.applyReset (s : State) : State :=
  { State.reset with pending := s.pending, responses := s.responses }

/-- A host read returned `v` from offset `off` (log 3); a read changes nothing else (R51). -/
def State.respond (s : State) (off : Offset) (v : BitVec 64) : State :=
  { s with responses := s.responses ++ [⟨off, v⟩] }

/-- Replace the host's pending actions. -/
def State.setPending (s : State) (ops : List HostOp) : State := { s with pending := ops }

end Sys2Proof.Machine
end

