-- ==== Sys2Proof/Machine/Codec.lean ====
section
/-! DEFINITION. keccak_state_codec: the byte and lane conversions and the commands B2S, S2B and
XORRATE (40_codec.md). -/

namespace Sys2Proof.Machine

/-- `byte(j)` of R80: byte `j` of the sequence, or zero past its end. -/
def byteOrZero (b : List Byte) (j : Nat) : Byte := b.getD j 0

/-- Lane `i` of `bytesToState(b)`: eight bytes, the first least significant (R80). -/
def packLane (b : List Byte) (i : Nat) : Lane :=
  (List.range 8).foldl (fun v k => v ||| ((byteOrZero b (8 * i + k)).setWidth 64 <<< (8 * k))) 0

/-- `bytesToState(b)` (R80). -/
def bytesToState (b : List Byte) : Lanes := tabulate fun i => packLane b i.val

/-- Byte `k` of a lane, `v[8k+7:8k]` (R82). -/
def laneByte (v : Lane) (k : Nat) : Byte := v.extractLsb' (8 * k) 8

/-- `stateToBytes(A)`: the lanes in order, each little-endian (R82). -/
def stateToBytes (A : Lanes) : Buffer := tabulate fun j => laneByte (A[j.val / 8]) (j.val % 8)

/-- `absorbXor(A, blk)`: the block enters lanes 0..20, and lanes 21..24 stay (R84). -/
def absorbXor (A : Lanes) (blk : Block) : Lanes :=
  let T := bytesToState blk.toList
  tabulate fun i => if i.val < 21 then A[i] ^^^ T[i] else A[i]

/-- B2S (R85). -/
def execB2s (L : Nat) (s : State) : Result :=
  unlessFault s <|
    if byteCountLegal L then s.setLanes (bytesToState (s.bufHead L))
    else s.raiseFault .operandRange (encode (.b2s L))

/-- S2B (R86). -/
def execS2b (s : State) : Result := unlessFault s (s.setBuf (stateToBytes s.lanes))

/-- XORRATE (R87). -/
def execXorrate (s : State) : Result := unlessFault s (s.setLanes (absorbXor s.lanes s.rateBlock))

end Sys2Proof.Machine
end

