-- ==== Sys2Proof/Machine/Padding.lean ====
section
/-! DEFINITION. shake_padding: the padding function and the command PAD (43_padding.md). -/

namespace Sys2Proof.Machine

/-- `pad(rem)` for `len(rem) < 168` (R140): the bytes of `rem` in a zero block, 0x1F XORed into byte
`r`, then 0x80 XORed into byte 167. Nothing branches on `r = 167` (R141). -/
def pad (rem : List Byte) : Block :=
  tabulate fun j =>
    rem.getD j.val 0 ^^^ (if j.val = rem.length then 0x1F else 0) ^^^ (if j.val = 167 then 0x80 else 0)

/-- PAD (R143). -/
def execPad (r : Nat) (s : State) : Result :=
  unlessFault s <|
    if tailLegal r then s.setRateBlock (pad (s.bufHead r))
    else s.raiseFault .padPrecondition (encode (.pad r))

end Sys2Proof.Machine
end

