-- ==== Sys2Proof/Machine/RoundOps.lean ====
section
/-! DEFINITION. The constant tables, the five round operations, the round, and the commands THETA, RHO,
PI, CHI, IOTA and ROUND (41_round_ops.md). Every function reads its whole input before it forms a lane
(R100): each is a pure function of `A`. -/

namespace Sys2Proof.Machine

/-- `ROTL64(v, n)` for `n` in 0..63 (R6). -/
def rotl64 (v : Lane) (n : Nat) : Lane := if n = 0 then v else (v <<< n) ||| (v >>> (64 - n))

/-- The table of R101 as it is printed: row `k` holds `RC[k]` and `RC[k+12]`. -/
def rcRows : Vector (Lane × Lane) 12 := #v[
  (0x0000000000000001, 0x000000008000808B),
  (0x0000000000008082, 0x800000000000008B),
  (0x800000000000808A, 0x8000000000008089),
  (0x8000000080008000, 0x8000000000008003),
  (0x000000000000808B, 0x8000000000008002),
  (0x0000000080000001, 0x8000000000000080),
  (0x8000000080008081, 0x000000000000800A),
  (0x8000000000008009, 0x800000008000000A),
  (0x000000000000008A, 0x8000000080008081),
  (0x0000000000000088, 0x8000000000008080),
  (0x0000000080008009, 0x0000000080000001),
  (0x000000008000000A, 0x8000000080008008)
]

/-- The round constants RC: the left column of the table, then the right one (R101, log 9). -/
def RC : Vector Lane 24 := rcRows.map Prod.fst ++ rcRows.map Prod.snd

/-- The rotation offsets RHO, one per lane (R102, log 9). -/
def RHO : Vector (Fin 64) 25 := #v[
  0, 1, 62, 28, 27,
  36, 44, 6, 55, 20,
  3, 10, 43, 25, 39,
  41, 45, 15, 21, 8,
  18, 2, 61, 56, 14]

/-- The lane permutation PI, in the gather direction (R103, log 9). -/
def PI : Vector (Fin 25) 25 := #v[
  0, 6, 12, 18, 24, 3, 9, 10, 16, 22, 1, 7, 13,
  19, 20, 4, 5, 11, 17, 23, 2, 8, 14, 15, 21]

/-- The column parities C of R105. -/
def columnParity (A : Lanes) : Vector Lane 5 :=
  tabulate fun x => A[x.val] ^^^ A[x.val + 5] ^^^ A[x.val + 10] ^^^ A[x.val + 15] ^^^ A[x.val + 20]

/-- The column effects D of R105, from the column parities. -/
def thetaEffect (C : Vector Lane 5) : Vector Lane 5 :=
  tabulate fun x =>
    C[(x.val + 4) % 5]'(by omega) ^^^ rotl64 (C[(x.val + 1) % 5]'(by omega)) 1

/-- `theta(A)` (R105). -/
def theta (A : Lanes) : Lanes :=
  let D := thetaEffect (columnParity A)
  tabulate fun i => A[i] ^^^ D[i.val % 5]'(by omega)

/-- `rho(A)` (R106). -/
def rho (A : Lanes) : Lanes := tabulate fun i => rotl64 A[i] RHO[i].val

/-- `pi(A)`: the lane at `i` is the old lane at `PI[i]` (R107). -/
def pi (A : Lanes) : Lanes := tabulate fun i => A[PI[i]]

/-- `chi(A)`, with `y = 5 (i div 5)` the row start and `x = i mod 5` the column of lane `i` (R108). -/
def chi (A : Lanes) : Lanes :=
  tabulate fun i =>
    let y := 5 * (i.val / 5)
    let x := i.val % 5
    A[i] ^^^ (~~~(A[y + (x + 1) % 5]'(by omega)) &&& A[y + (x + 2) % 5]'(by omega))

/-- `iota(A, ir)` (R109). -/
def iota (A : Lanes) (ir : Fin 24) : Lanes := A.set 0 (A[0] ^^^ RC[ir])

/-- `round(A, ir)`: theta, rho, pi, chi, iota in that order (R110). -/
def round (A : Lanes) (ir : Fin 24) : Lanes := iota (chi (pi (rho (theta A)))) ir

/-- THETA (R111). -/
def execTheta (s : State) : Result := unlessFault s (s.setLanes (theta s.lanes))

/-- RHO (R112). -/
def execRho (s : State) : Result := unlessFault s (s.setLanes (rho s.lanes))

/-- PI (R113). -/
def execPi (s : State) : Result := unlessFault s (s.setLanes (pi s.lanes))

/-- CHI (R114). -/
def execChi (s : State) : Result := unlessFault s (s.setLanes (chi s.lanes))

/-- IOTA (R115). -/
def execIota (ir : Nat) (s : State) : Result :=
  unlessFault s <|
    match roundIndex? ir with
    | none => s.raiseFault .operandRange (encode (.iota ir))
    | some k => s.setLanes (iota s.lanes k)

/-- ROUND (R120). The range check comes before any of the five operations. -/
def execRound (ir : Nat) (s : State) : Result :=
  unlessFault s <|
    match roundIndex? ir with
    | none => s.raiseFault .operandRange (encode (.round ir))
    | some k => s.setLanes (round s.lanes k)

end Sys2Proof.Machine
end

