-- ==== Sys2Proof/Machine/Permutation.lean ====
section
/-! DEFINITION. keccak_permutation_24round: the function of R130, the driver with its hidden round
counter (R35, R133), and the command PERMUTE (42_permutation.md). -/

namespace Sys2Proof.Machine

/-- `permute(A)`: rounds 0, 1, ..., 23 in that order (R130). -/
def permute (A : Lanes) : Lanes := (List.finRange 24).foldl round A

/-- One round of the driver: the round counter is the index given to iota, and then counts on (R35). -/
def State.roundTick (s : State) : State :=
  match s.roundCounter with
  | none => s
  | some k =>
    match roundIndex? k.toNat with
    | none => s
    | some ir => { s with lanes := round s.lanes ir, roundCounter := some (k + 1) }

/-- `n` rounds of the driver. -/
def State.roundTicks : Nat → State → State
  | 0, s => s
  | n + 1, s => State.roundTicks n s.roundTick

/-- The permutation driver: the counter exists from round 0 to round 23 and not afterwards (R35, R133).
There is no early termination (R4). -/
def State.runPermutation (s : State) : State :=
  { State.roundTicks 24 { s with roundCounter := some 0 } with roundCounter := none }

/-- PERMUTE (R131). -/
def execPermute (s : State) : Result := unlessFault s s.runPermutation

end Sys2Proof.Machine
end

