-- ==== Sys2Proof/Machine/Sponge.lean ====
section
/-! DEFINITION. keccak_sponge_driver: the pure function shake128 and the commands INIT, ABSORB, FINAL
and SQUEEZE (44_sponge.md). -/

namespace Sys2Proof.Machine

/-- Twenty-five zero lanes. -/
def zeroLanes : Lanes := Vector.replicate 25 0

/-- `m[168k .. 168k+167]`, the full block `k` of a message (R150). -/
def messageBlock (m : List Byte) (k : Nat) : Block := tabulate fun j => byteOrZero m (168 * k + j.val)

/-- The tail of a message after its full blocks (R150). -/
def messageTail (m : List Byte) : List Byte := m.drop (168 * (m.length / 168))

/-- The absorb phase of R150: every full block, then the padded tail, exactly once (R151). -/
def absorbMessage (m : List Byte) : Lanes :=
  let A := (List.range (m.length / 168)).foldl (fun A k => permute (absorbXor A (messageBlock m k))) zeroLanes
  permute (absorbXor A (pad (messageTail m)))

/-- The squeeze loop of R150 while `need` bytes are missing. Every turn emits at least one byte, so
`need` turns are enough fuel. -/
def squeezeBytes : Nat → Lanes → Nat → List Byte
  | 0, _, _ => []
  | fuel + 1, A, need =>
    if need = 0 then []
    else
      let k := min 168 need
      let out := (stateToBytes A).toList.take k
      if need - k > 0 then out ++ squeezeBytes fuel (permute A) (need - k) else out

/-- `shake128(m, n)`; `none` is the failure InvalidArgument (R150). -/
def shake128 (m : List Byte) (n : Int) : Option (List Byte) :=
  if n < 0 then none else some (squeezeBytes n.toNat (absorbMessage m) n.toNat)

/-- INIT (R155). -/
def execInit (s : State) : Result :=
  unlessFault s { s with lanes := zeroLanes, outrem := 0, lastk := 0, phase := .absorb }

/-- ABSORB (R157). -/
def execAbsorb (s : State) : Result :=
  unlessFault s <|
    if s.phase ≠ .absorb then s.raiseFault .phaseError (encode .absorb)
    else (s.setLanes (absorbXor s.lanes s.rateBlock)).runPermutation

/-- FINAL (R160), its checks in the order of R187. -/
def execFinal (r : Nat) (s : State) : Result :=
  let n := sint64 s.outlen
  unlessFault s <|
    if s.phase ≠ .absorb then s.raiseFault .phaseError (encode (.final r))
    else if n < 0 then s.raiseFault .invalidArgument (encode (.final r))
    else if tailLegal r = false then s.raiseFault .padPrecondition (encode (.final r))
    else
      let padded := s.setRateBlock (pad (s.bufHead r))
      let absorbed := (padded.setLanes (absorbXor padded.lanes padded.rateBlock)).runPermutation
      { absorbed with
        outrem := BitVec.ofInt 64 n, lastk := 0, phase := if n > 0 then .squeeze else .idle }

/-- SQUEEZE (R165). The bytes put into BUF are those before the permutation it may perform. -/
def execSqueeze (s : State) : Result :=
  unlessFault s <|
    if s.phase ≠ .squeeze then s.raiseFault .phaseError (encode .squeeze)
    else
      let k := min 168 s.outrem.toNat
      let emitted :=
        { s with
          buf := stateToBytes s.lanes, lastk := BitVec.ofNat 64 k, outrem := s.outrem - BitVec.ofNat 64 k }
      if emitted.outrem ≠ 0 then emitted.runPermutation else { emitted with phase := .idle }

end Sys2Proof.Machine
end

