-- ==== Sys2Proof/Machine/Dispatch.lean ====
section
/-! DEFINITION. One arm per command of the opcode map (30_encoding.md R63). -/

namespace Sys2Proof.Machine

def exec (i : Instr) (s : State) : Host.Outcome State Fault Refusal :=
  match i with
  | .init => Sys2Proof.Machine.execInit s
  | .b2s L => Sys2Proof.Machine.execB2s L s
  | .s2b => Sys2Proof.Machine.execS2b s
  | .xorrate => Sys2Proof.Machine.execXorrate s
  | .pad r => Sys2Proof.Machine.execPad r s
  | .theta => Sys2Proof.Machine.execTheta s
  | .rho => Sys2Proof.Machine.execRho s
  | .pi => Sys2Proof.Machine.execPi s
  | .chi => Sys2Proof.Machine.execChi s
  | .iota ir => Sys2Proof.Machine.execIota ir s
  | .round ir => Sys2Proof.Machine.execRound ir s
  | .permute => Sys2Proof.Machine.execPermute s
  | .absorb => Sys2Proof.Machine.execAbsorb s
  | .final r => Sys2Proof.Machine.execFinal r s
  | .squeeze => Sys2Proof.Machine.execSqueeze s

end Sys2Proof.Machine
end

