-- ==== Sys2Proof/Machine/Flags.lean ====
section
/-! DEFINITION. The core has no flags or condition codes (R33). Its only status is the STATUS
register, whose word is computed here from the stored fields (R25 to R28, log 7). -/

namespace Sys2Proof.Machine

/-- The encoding of STATUS.PH (R26). -/
def Phase.code : Phase → BitVec 2
  | .idle => 0
  | .absorb => 1
  | .squeeze => 2
  | .fault => 3

/-- The encoding of a fault in STATUS.ERR (R27). -/
def ErrorCode.code : ErrorCode → BitVec 3
  | .invalidArgument => 1
  | .padPrecondition => 2
  | .illegalCommand => 3
  | .phaseError => 4
  | .operandRange => 5

/-- STATUS.ERR, with 0 for no error (R27). -/
def errField (e : Option ErrorCode) : BitVec 3 :=
  match e with
  | none => 0
  | some c => c.code

/-- The STATUS word: bits 63:11 zero, ERR, bits 7:3 zero, BUSY, PH (R25). -/
def State.statusWord (s : State) : BitVec 64 :=
  0#53 ++ errField s.err ++ 0#5 ++ BitVec.ofBool s.busy ++ s.phase.code

/-- Field PH of a STATUS word the host has read (R25). -/
def phField (status : BitVec 64) : BitVec 2 := status.extractLsb' 0 2

end Sys2Proof.Machine
end

