-- ==== Sys2Proof/Machine/Bus.lean ====
section
/-! DEFINITION. The host register map, command issue, and the meaning of each host action
(20_memory.md; 30_encoding.md R60; 44_sponge.md R170). -/

namespace Sys2Proof.Machine

/-- What an admitted access reaches (R41). -/
inductive MapEntry where
  | buf (j : Fin 200)
  | lane (i : Fin 25)
  | cmd
  | status
  | outlen
  | outrem
  | lastk
  | errcmd
  deriving DecidableEq, Repr

/-- The offsets of the named registers (R41). -/
def cmdOffset : Offset := 0x200
def statusOffset : Offset := 0x208
def outlenOffset : Offset := 0x210
def outremOffset : Offset := 0x218
def lastkOffset : Offset := 0x220
def errcmdOffset : Offset := 0x228

/-- The offset at distance `a` from the base. The map has offsets up to 0xFFF only (R40), and R65 gives no
range for the index of a host line. DESIGN CHOICE, safe (log 15): a distance past 0xFFF becomes the reserved
offset 0xFFF, so the host is stuck on the access (R42) and never reaches another register. -/
def mapOffset (a : Nat) : Offset := if a < 0x1000 then BitVec.ofNat 12 a else 0xFFF

/-- The offset a host line names for byte `j` of BUF (R41, R65, log 15). -/
def bufOffset (j : Nat) : Offset := mapOffset j

/-- The offset a host line names for lane `i` (R41, R65, log 15). -/
def laneOffset (i : Nat) : Offset := mapOffset (0x100 + 8 * i)

/-- The register an access of `width` bytes at offset `off` reaches; `none` if the map does not admit
the access (R41, R42, R49). -/
def mapEntry (off : Offset) (width : Nat) : Option MapEntry :=
  let a := off.toNat
  if h : a < 200 then
    if width = 1 then some (.buf ⟨a, h⟩) else none
  else if h : 0x100 ≤ a ∧ a ≤ 0x1C0 then
    if width = 8 ∧ a % 8 = 0 then some (.lane ⟨(a - 0x100) / 8, by omega⟩) else none
  else if off = cmdOffset then if width = 4 then some .cmd else none
  else if width ≠ 8 then none
  else if off = statusOffset then some .status
  else if off = outlenOffset then some .outlen
  else if off = outremOffset then some .outrem
  else if off = lastkOffset then some .lastk
  else if off = errcmdOffset then some .errcmd
  else none

/-- The issue of command word `w` (R60): ignored in the fault state, IllegalCommand if it does not
decode, and otherwise the command's own meaning. -/
def issue (w : CommandWord) (s : State) : Result :=
  match decode w with
  | .error _ => unlessFault s (s.raiseFault .illegalCommand w)
  | .ok i => exec i s

/-- The value a read of a register returns, zero-extended (R43 to R47). CMD reads as 0 (R24). -/
def readEntry (s : State) (e : MapEntry) : BitVec 64 :=
  match e with
  | .buf j => (s.bufByte j).setWidth 64
  | .lane i => s.lane i
  | .cmd => 0
  | .status => s.statusWord
  | .outlen => s.outlen
  | .outrem => s.outrem
  | .lastk => s.lastk
  | .errcmd => s.errcmd

/-- A write of `v` to a register (R43 to R47): CMD issues a command, and the read-only registers ignore
the write. -/
def writeEntry (s : State) (e : MapEntry) (v : BitVec 64) : Result :=
  match e with
  | .buf j => .next (s.setBufByte j (v.setWidth 8))
  | .lane i => .next (s.setLane i v)
  | .cmd => issue (v.setWidth 32) s
  | .status => .next s
  | .outlen => .next { s with outlen := v }
  | .outrem => .next s
  | .lastk => .next s
  | .errcmd => .next s

/-- `MemWrite(off, width, v)`. The host is stuck on an access the map does not admit (R42) and on any
write while BUSY = 1 (R206). -/
def busWrite (off : Offset) (width : Nat) (v : BitVec 64) (s : State) : Result :=
  match mapEntry off width with
  | none => .fault .inadmissibleAccess
  | some e => if s.busy then .fault .accessWhileBusy else writeEntry s e v

/-- The value `MemRead(off, width)` returns, if the map admits the access (R43 to R47). -/
def readValue (off : Offset) (width : Nat) (s : State) : Option (BitVec 64) :=
  (mapEntry off width).map (readEntry s)

/-- `MemRead(off, width)`. While BUSY = 1 only STATUS may be read (R206). -/
def busRead (off : Offset) (width : Nat) (s : State) : Result :=
  match mapEntry off width with
  | none => .fault .inadmissibleAccess
  | some e =>
    if s.busy ∧ e ≠ .status then .fault .accessWhileBusy else .next (s.respond off (readEntry s e))

/-- `rb j` (R65). -/
def rb (j : Nat) : HostOp := .read (bufOffset j) 1

/-- `rbs j, k` (R66). -/
def rbs (j k : Nat) : List HostOp := (List.range k).map fun d => rb (j + d)

/-- The write to CMD of a command line (R65). -/
def command (i : Instr) : HostOp := .write cmdOffset 4 ((encode i).setWidth 64)

/-- One turn of the host loop of R170, decided by the STATUS the host has read. -/
def squeezeTurn (status : BitVec 64) : List HostOp :=
  if phField status = Phase.code .squeeze then [command .squeeze, .readOutput, .squeezeLoop] else []

/-- After the host action's own access, the host goes on with `ops` before its other actions. -/
def thenIssue (ops : List HostOp) (r : Result) : Result :=
  match r with
  | .next s => .next (s.setPending (ops ++ s.pending))
  | .fault f => .fault f
  | .refused f => .refused f

/-- The meaning of one host action (20_memory.md section 3, R200, R170). -/
def hostAction (op : HostOp) (s : State) : Result :=
  match op with
  | .write off width v => busWrite off width v s
  | .read off width => busRead off width s
  | .reset => .next s.applyReset
  | .squeezeLoop => thenIssue (squeezeTurn s.statusWord) (busRead statusOffset 8 s)
  | .readOutput => thenIssue (rbs 0 s.lastk.toNat) (busRead lastkOffset 8 s)

end Sys2Proof.Machine
end

