-- ==== Sys2Proof/Machine/HostProgram.lean ====
section
/-! DEFINITION. The host notation and the pseudo-instructions, as the host actions they expand to
(30_encoding.md R65, R66; 44_sponge.md R170). -/

namespace Sys2Proof.Machine

/-- `MemWrite(addr, n, v)` at an absolute bus address, if it lies in the register map (R40). -/
def memWrite (addr n : Nat) (v : BitVec 64) : Option HostOp :=
  (Config.offsetOf addr).map fun off => .write off n v

/-- `MemRead(addr, n)` at an absolute bus address, if it lies in the register map (R40). -/
def memRead (addr n : Nat) : Option HostOp := (Config.offsetOf addr).map fun off => .read off n

/-- `wb j, v` (R65). -/
def wb (j : Nat) (v : Byte) : HostOp := .write (bufOffset j) 1 (v.setWidth 64)

/-- `wl i, v` (R65). -/
def wl (i : Nat) (v : Lane) : HostOp := .write (laneOffset i) 8 v

/-- `rl i` (R65). -/
def rl (i : Nat) : HostOp := .read (laneOffset i) 8

/-- `wr OUTLEN, v` (R65). -/
def wrOutlen (v : BitVec 64) : HostOp := .write outlenOffset 8 v

/-- The registers `rr NAME` reads (R65). -/
inductive RegName where
  | status
  | outlen
  | outrem
  | lastk
  | errcmd
  deriving DecidableEq, Repr

/-- The offset of a named register (R41). -/
def RegName.offset : RegName → Offset
  | .status => statusOffset
  | .outlen => outlenOffset
  | .outrem => outremOffset
  | .lastk => lastkOffset
  | .errcmd => errcmdOffset

/-- `rr NAME` (R65). -/
def rr (name : RegName) : HostOp := .read name.offset 8

/-- `wbs j, b0, b1, ..., bk` (R66). -/
def wbs (j : Nat) (bytes : List Byte) : List HostOp := bytes.mapIdx fun d v => wb (j + d) v

/-- `ROUNDS24` (R66). -/
def rounds24 : List Instr := (List.range 24).map .round

/-- `ROUNDX ir` (R66). -/
def roundx (ir : Nat) : List Instr := [.theta, .rho, .pi, .chi, .iota ir]

/-- `SHAKE m, n`: the host program of R170. -/
def shakeProgram (m : List Byte) (n : BitVec 64) : List HostOp :=
  let nb := m.length / 168
  [wrOutlen n, command .init]
    ++ (List.range nb).flatMap (fun k => wbs 0 (messageBlock m k).toList ++ [command .absorb])
    ++ wbs 0 (messageTail m)
    ++ [command (.final (messageTail m).length), .squeezeLoop]

/-- The output bytes among what the host has read: the reads of BUF, in order (R170). -/
def outputBytes (responses : List Response) : List Byte :=
  responses.filterMap fun r => if r.off.toNat < 200 then some (r.value.setWidth 8) else none

/-- Commands one after another, from one state (R52). -/
def execAll : List Instr → State → Result
  | [], s => .next s
  | i :: is, s =>
    match exec i s with
    | .next t => execAll is t
    | .fault f => .fault f
    | .refused f => .refused f

end Sys2Proof.Machine
end

