-- ==== Sys2Proof/Machine/Step.lean ====
section
/-! DEFINITION. One step of the core and its one host (20_memory.md R52; 70_reset_and_hazards.md R201). -/

namespace Sys2Proof.Machine

/-- One step: the host's next action, in the order it issues them (R52). With no action pending the
core waits and nothing changes (R197, R201, log 2). -/
def step (s : State) : Host.Outcome State Fault Refusal :=
  match s.pending with
  | [] => .next s
  | op :: rest => hostAction op (s.setPending rest)

/-- `k` steps, stopping at the first fault or refusal. -/
def runSteps : Nat → State → Host.Outcome State Fault Refusal
  | 0, s => .next s
  | k + 1, s =>
    match step s with
    | .next t => runSteps k t
    | .fault f => .fault f
    | .refused f => .refused f

/-- The state in which the host's next action is the issue of the command word `w` (R45), so that the
very next step runs it. BUSY is clear, as the access needs (R206, log 11). -/
def State.withFetchWord (s : State) (nbits w : Nat) : State :=
  { s with busy := false, pending := .write cmdOffset 4 (BitVec.ofNat 64 (w % 2 ^ nbits)) :: s.pending }

end Sys2Proof.Machine
end

