-- ==== Sys2Proof/Safety.lean ====
section
/-! DEFINITION. What a reachable state of the core satisfies, and what a host program must respect to
keep getting steps. -/

namespace Sys2Proof.Machine

/-- The invariant of the core's registers: ERR is non-zero exactly in the fault state (R27), BUSY is 0
and no round counter exists between commands (R28, R35), OUTREM is at most 2^63 - 1 and is non-zero in
phase SQUEEZE (R30) and zero in IDLE and ABSORB, LASTK is at most 168 (R31), and ERRCMD has a zero upper
half and is zero before the first fault (R32). -/
abbrev State.Inv (s : State) : Prop :=
  (s.err = none ↔ s.phase ≠ .fault) ∧
  s.busy = false ∧
  s.roundCounter = none ∧
  s.outrem.toNat < 2 ^ 63 ∧
  (s.phase = .squeeze → s.outrem ≠ 0) ∧
  (s.phase = .idle ∨ s.phase = .absorb → s.outrem = 0) ∧
  s.lastk.toNat ≤ 168 ∧
  s.errcmd.toNat < 2 ^ 32 ∧
  (s.err = none → s.errcmd = 0)

/-- The register map admits the access of a host action (R42); reset and the loop of R170 make no
other access. -/
def HostOp.admitted : HostOp → Bool
  | .write off width _ => (mapEntry off width).isSome
  | .read off width => (mapEntry off width).isSome
  | .reset => true
  | .squeezeLoop => true
  | .readOutput => true

/-- Every action the host still has to issue is admitted. -/
abbrev State.HostAdmitted (s : State) : Prop := ∀ op ∈ s.pending, op.admitted = true

end Sys2Proof.Machine
end

