-- ==== Sys2Proof/Certificates/Slice0/Obligations.lean ====
section
/-! DEFINITION. The statements for the provers, from the numbered rules of spec/. Every statement about
a command holds in every state the hypotheses allow, reachable or not. -/

open Sys2Proof Sys2Proof.Machine

/-! ### Encoding -/

/-- 30_encoding.md sections 2 to 4: decoding the word of a well-formed command gives the command back. -/
def Obligations.DecodeOfEncodeIsTheCommand : Prop :=
  ∀ i : Instr, i.wf = true → decode (encode i) = .ok i

/-- 30_encoding.md sections 2 to 4: a word that decodes is the word of the command it decodes to, so no
bit of it is dropped. -/
def Obligations.EncodeOfDecodeIsTheWord : Prop :=
  ∀ (w : CommandWord) (i : Instr), decode w = .ok i → i.wf = true ∧ encode i = w

/-- R63: the opcode map. A word is command X exactly when `w AND mask_X = match_X`; no two rows overlap;
a row has an operand exactly when its command has one; a command's word is `(a << 8) OR OP`; and the
rule's five example words. -/
def Obligations.WordIsTheCommandOfTheRowItMatches : Prop :=
  (∀ (w : CommandWord) (row : OpcodeRow), row ∈ opcodeTable →
    (w &&& row.mask = row.matchBits ↔
      ∃ i, decode w = .ok i ∧ i.mnemonic = row.mnemonic ∧ i.operand?.isSome = row.hasOperand)) ∧
  (∀ (w : CommandWord) (i : Instr), decode w = .ok i →
    ∃ row ∈ opcodeTable, w &&& row.mask = row.matchBits ∧ row.mnemonic = i.mnemonic ∧
      w = (BitVec.ofNat 32 (i.operand?.getD 0) <<< 8) ||| (row.matchBits &&& 0xFF)) ∧
  (∀ (w : CommandWord), ∀ row ∈ opcodeTable, ∀ row' ∈ opcodeTable,
    w &&& row.mask = row.matchBits → w &&& row'.mask = row'.matchBits → row = row') ∧
  encode .init = 0x00000001 ∧ encode (.final 3) = 0x00000321 ∧ encode (.iota 23) = 0x00001714 ∧
  encode (.b2s 200) = 0x0000C802 ∧ encode (.pad 167) = 0x0000A705

/-- R64 and R181: the illegal commands are the words with an unassigned OP, with `RSV ≠ 0`, or with
`A ≠ 0` on a command without an operand, and no others; executing one raises IllegalCommand, code 3 in
STATUS. The word 0 is illegal. -/
def Obligations.IllegalWordsRaiseIllegalCommand : Prop :=
  (∀ w : CommandWord,
    (∃ e, decode w = .error e) ↔
      ((let op := (w.extractLsb' 0 8).toNat
        op = 0x00 ∨ (0x06 ≤ op ∧ op ≤ 0x0F) ∨ (0x17 ≤ op ∧ op ≤ 0x1F) ∨ (0x23 ≤ op ∧ op ≤ 0xFF)) ∨
       w.extractLsb' 16 16 ≠ 0 ∨
       ((w.extractLsb' 0 8).toNat ∈ [0x01, 0x03, 0x04, 0x10, 0x11, 0x12, 0x13, 0x16, 0x20, 0x22] ∧
        w.extractLsb' 8 8 ≠ 0))) ∧
  (∀ (s : State) (w : CommandWord) (e : DecodeError), s.phase ≠ .fault → decode w = .error e →
    issue w s = .next (s.raiseFault .illegalCommand w)) ∧
  (∀ (s : State) (w : CommandWord), (s.raiseFault .illegalCommand w).statusWord = 0x303) ∧
  (∃ e, decode 0x00000000 = .error e)

/-- 30_encoding.md section 4: words written out bit by bit from the fields OP, A and RSV decode to the
commands they stand for. -/
def Obligations.WordsWrittenFromTheFormatDecode : Prop :=
  decode 0b00000000000000000000000000000001#32 = .ok .init ∧
  decode 0b00000000000000001100100000000010#32 = .ok (.b2s 200) ∧
  decode 0b00000000000000001010011100000101#32 = .ok (.pad 167) ∧
  decode 0b00000000000000000001011100010100#32 = .ok (.iota 23) ∧
  decode 0b00000000000000000000000000010110#32 = .ok .permute ∧
  decode 0b00000000000000000000001100100001#32 = .ok (.final 3)

/-! ### Steps, command issue and reset -/

/-- R45: the host's write of `w` to CMD issues the command `w[31:0]`. If it decodes to `i`, the step is
`exec i`; the step has then taken the write off the host's pending actions and does nothing else. -/
def Obligations.StepRunsTheDecodedCommand : Prop :=
  ∀ (s : State) (rest : List HostOp) (v : BitVec 64) (i : Instr),
    s.busy = false → s.pending = .write 0x200 4 v :: rest → decode (v.setWidth 32) = .ok i →
      step s = exec i { s with pending := rest }

/-- R45 and R60 of a word that does not decode: the step raises IllegalCommand, or nothing happens in
the fault state. That the host's actions stand in `pending` is the model's choice (log 1). -/
def Obligations.StepOnAnIllegalWordFaults : Prop :=
  ∀ (s : State) (rest : List HostOp) (v : BitVec 64) (e : DecodeError),
    s.busy = false → s.pending = .write 0x200 4 v :: rest → decode (v.setWidth 32) = .error e →
      step s = .next (if s.phase = .fault then { s with pending := rest }
        else ({ s with pending := rest } : State).raiseFault .illegalCommand (v.setWidth 32))

/-- R43 to R47 through a step: the host's next access is `MemWrite` or `MemRead`, and nothing around it.
That the host's actions stand in `pending` and the values it reads are appended to `responses` is the
model's choice (log 1, log 3). -/
def Obligations.StepPerformsTheHostAccess : Prop :=
  ∀ (s : State) (rest : List HostOp) (off : Offset) (width : Nat) (v : BitVec 64),
    (s.pending = .write off width v :: rest → step s = busWrite off width v { s with pending := rest }) ∧
    (s.pending = .read off width :: rest → s.busy = false → readValue off width s = some v →
      step s = .next { s with pending := rest, responses := s.responses ++ [⟨off, v⟩] })

/-- The model's choices of log 2, log 13 and log 6: with no host action the core waits (read from R197 and
R201); reset leaves the host's own pending actions and its log of reads, and leaves no round counter. -/
def Obligations.WaitingAndResetKeepTheHostSide : Prop :=
  ∀ s : State,
    (s.pending = [] → step s = .next s) ∧
    (∀ rest, s.pending = .reset :: rest →
      ∃ t, step s = .next t ∧ t.pending = rest ∧ t.responses = s.responses ∧ t.roundCounter = none)

/-- R200: reset gives every piece of the core's state its reset value, from any state, the fault state
and a state with BUSY = 1 included; no value is unspecified. (The round counter, for which R200 gives no
value, is in the statement before this one.) -/
def Obligations.ResetSetsEveryPieceOfState : Prop :=
  ∀ (s : State) (rest : List HostOp), s.pending = .reset :: rest →
    ∃ t : State, step s = .next t ∧ (∀ i : Fin 25, t.lane i = 0) ∧ (∀ j : Fin 200, t.bufByte j = 0x00) ∧
      t.phase = .idle ∧ t.busy = false ∧ t.err = none ∧ t.statusWord = 0 ∧ t.outlen = 0 ∧ t.outrem = 0 ∧
      t.lastk = 0 ∧ t.errcmd = 0

/-- R60 and R186: every word written to CMD in the fault state is ignored, and so is every command. -/
def Obligations.FaultStateIgnoresEveryCommand : Prop :=
  ∀ s : State, s.phase = .fault →
    (∀ w : CommandWord, issue w s = .next s) ∧ (∀ i : Instr, exec i s = .next s)

/-- R186: in the fault state a step other than reset keeps STATUS.PH, STATUS.ERR, ERRCMD, OUTREM and
LASTK, so only reset leaves it. That the host's actions stand in `pending` is the model's choice (log 1). -/
def Obligations.OnlyResetLeavesTheFaultState : Prop :=
  ∀ s t : State, s.phase = .fault → s.pending.head? ≠ some .reset → step s = .next t →
    t.phase = .fault ∧ t.err = s.err ∧ t.errcmd = s.errcmd ∧ t.outrem = s.outrem ∧ t.lastk = s.lastk

/-! ### Faults -/

/-- R185: fault entry is precise. Whatever word is issued, if it takes the core into the fault state then
exactly ERR, ERRCMD (the whole word), PH and BUSY are written. -/
def Obligations.FaultEntryIsPrecise : Prop :=
  ∀ (w : CommandWord) (s t : State), s.phase ≠ .fault → issue w s = .next t → t.phase = .fault →
    ∃ code : ErrorCode,
      t = { s with err := some code, errcmd := w.setWidth 64, phase := .fault, busy := false }

/-- R183: OperandRange (code 5) is raised by B2S when `L > 200` and by IOTA and ROUND when `ir > 23`, for
every word of those commands. -/
def Obligations.OperandRangeIsRaisedBeyondTheTables : Prop :=
  ∀ (s : State) (w : CommandWord), s.phase ≠ .fault →
    (∀ L, 200 < L → decode w = .ok (.b2s L) → issue w s = .next (s.raiseFault .operandRange w)) ∧
    (∀ ir, 23 < ir → decode w = .ok (.iota ir) → issue w s = .next (s.raiseFault .operandRange w)) ∧
    (∀ ir, 23 < ir → decode w = .ok (.round ir) → issue w s = .next (s.raiseFault .operandRange w)) ∧
    (s.raiseFault .operandRange w).statusWord = 0x503

/-- R184: PhaseError (code 4) is raised by ABSORB and FINAL when PH is not ABSORB and by SQUEEZE when PH
is not SQUEEZE, in the phases where commands are not ignored. -/
def Obligations.PhaseErrorIsRaisedOutOfOrder : Prop :=
  ∀ (s : State) (w : CommandWord), s.phase ≠ .fault →
    (s.phase ≠ .absorb → decode w = .ok .absorb → issue w s = .next (s.raiseFault .phaseError w)) ∧
    (∀ r, s.phase ≠ .absorb → decode w = .ok (.final r) → issue w s = .next (s.raiseFault .phaseError w)) ∧
    (s.phase ≠ .squeeze → decode w = .ok .squeeze → issue w s = .next (s.raiseFault .phaseError w)) ∧
    (s.raiseFault .phaseError w).statusWord = 0x403

/-- R180: InvalidArgument (code 1) is raised by FINAL when `sint64(OUTLEN) < 0`, that is, for OUTLEN of
2^63 and above, and whatever the tail length is (R187); every other OUTLEN is a valid length. -/
def Obligations.InvalidArgumentIsRaisedOnNegativeLength : Prop :=
  ∀ (s : State) (w : CommandWord) (r : Nat), s.phase = .absorb → decode w = .ok (.final r) →
    (2 ^ 63 ≤ s.outlen.toNat → issue w s = .next (s.raiseFault .invalidArgument w)) ∧
    (s.outlen.toNat < 2 ^ 63 → r < 168 → ∃ t, issue w s = .next t ∧ t.phase ≠ .fault) ∧
    (s.raiseFault .invalidArgument w).statusWord = 0x103

/-- R182: PadPrecondition (code 2) is raised by PAD and by FINAL when `r ≥ 168`; by FINAL after its
other checks (R187). -/
def Obligations.PadPreconditionIsRaisedOnLongTail : Prop :=
  ∀ (s : State) (w : CommandWord) (r : Nat), 168 ≤ r →
    (s.phase ≠ .fault → decode w = .ok (.pad r) → issue w s = .next (s.raiseFault .padPrecondition w)) ∧
    (s.phase = .absorb → s.outlen.toNat < 2 ^ 63 → decode w = .ok (.final r) →
      issue w s = .next (s.raiseFault .padPrecondition w)) ∧
    (s.raiseFault .padPrecondition w).statusWord = 0x203

/-- R154: the phase transition table, row by row. -/
def Obligations.PhaseFollowsTheTransitionTable : Prop :=
  ∀ (i : Instr) (s t : State), exec i s = .next t →
    match s.phase, i with
    | .fault, _ => t.phase = .fault
    | _, .init => t.phase = .absorb
    | .absorb, .absorb => t.phase = .absorb
    | _, .absorb => t.phase = .fault ∧ t.err = some .phaseError
    | .absorb, .final r =>
      if 0 ≤ sint64 s.outlen ∧ r < 168 then
        t.phase = (if 0 < sint64 s.outlen then .squeeze else .idle)
      else t.phase = .fault
    | _, .final _ => t.phase = .fault ∧ t.err = some .phaseError
    | .squeeze, .squeeze => t.phase = (if 0 < t.outrem.toNat then .squeeze else .idle)
    | _, .squeeze => t.phase = .fault ∧ t.err = some .phaseError
    | p, _ => t.phase = p ∨ (t.phase = .fault ∧ t.err ≠ none)

/-! ### The codec -/

/-- R80, through B2S: byte `k` of lane `i` is byte `8i + k` of `BUF[0..L-1]`, and 0 past its end; only S
changes. Completion and result of B2S for every legal L. -/
def Obligations.B2sLoadsTheLanesLittleEndian : Prop :=
  ∀ (s : State) (L : Nat), s.phase ≠ .fault → L ≤ 200 →
    ∃ A : Lanes, exec (.b2s L) s = .next { s with lanes := A } ∧
      ∀ (i : Fin 25) (k : Fin 8),
        (A[i]).extractLsb' (8 * k.val) 8 =
          if 8 * i.val + k.val < L then s.bufByte ⟨8 * i.val + k.val, by omega⟩ else 0

/-- 40_codec.md sections 1 and 2: S2B puts byte `k` of lane `i` into `BUF[8i+k]`, all 200 bytes; only
BUF changes. -/
def Obligations.S2bSerializesTheLanesLittleEndian : Prop :=
  ∀ s : State, s.phase ≠ .fault →
    ∃ B : Buffer, exec .s2b s = .next { s with buf := B } ∧
      ∀ (i : Fin 25) (k : Fin 8),
        B[8 * i.val + k.val]'(by omega) = (s.lane i).extractLsb' (8 * k.val) 8

/-- 40_codec.md section 2: XORRATE XORs `BUF[8i+k]` into byte `k` of lane `i` for the lanes 0..20 and
leaves the lanes 21..24; only S changes. -/
def Obligations.XorrateXorsTheBlockIntoTheRateLanes : Prop :=
  ∀ s : State, s.phase ≠ .fault →
    ∃ A : Lanes, exec .xorrate s = .next { s with lanes := A } ∧
      (∀ (i : Fin 21) (k : Fin 8),
        (A[i.val]).extractLsb' (8 * k.val) 8 =
          (s.lanes[i.val]).extractLsb' (8 * k.val) 8 ^^^ s.bufByte ⟨8 * i.val + k.val, by omega⟩) ∧
      (∀ i : Fin 25, 21 ≤ i.val → A[i] = s.lane i)

/-- R81 and R84: a 168-byte block gives zero lanes 21..24, and `absorbXor` XORs the lanes 0..20, keeps
the lanes 21..24, and equals the XOR of all 25 lanes. -/
def Obligations.AbsorbXorIsTheXorOfAllLanes : Prop :=
  ∀ (A : Lanes) (blk : Block) (i : Fin 25),
    (i.val < 21 → (absorbXor A blk)[i] = A[i] ^^^ (bytesToState blk.toList)[i]) ∧
    (21 ≤ i.val → (bytesToState blk.toList)[i] = 0 ∧ (absorbXor A blk)[i] = A[i]) ∧
    (absorbXor A blk)[i] = A[i] ^^^ (bytesToState blk.toList)[i]

/-- 40_codec.md section 1 (the spec's derived law on the two conversions): they are inverse on whole
states. -/
def Obligations.CodecConversionsAreInverse : Prop :=
  (∀ A : Lanes, bytesToState (stateToBytes A).toList = A) ∧
  (∀ b : List Byte, b.length ≤ 200 →
    (stateToBytes (bytesToState b)).toList = b ++ List.replicate (200 - b.length) 0)

/-- 40_codec.md section 2, the corner case of XORRATE: issuing it twice restores the state. -/
def Obligations.XorrateTwiceRestoresTheState : Prop :=
  ∀ s : State, s.phase ≠ .fault → execAll [.xorrate, .xorrate] s = .next s

/-! ### The round operations and the permutation -/

/-- R6: `ROTL64(v, n)` moves bit `k` of `v` to bit `(k + n) mod 64`, for every `n` in 0..63. -/
def Obligations.RotationMovesEveryBit : Prop :=
  ∀ (v : Lane) (n k : Nat), n < 64 → k < 64 →
    (rotl64 v n).getLsbD ((k + n) % 64) = v.getLsbD k ∧
    rotl64 v n = (if n = 0 then v else (v <<< n) ||| (v >>> (64 - n)))

/-- 41_round_ops.md section 1: the properties the spec derives for its tables, and the rules it prints from
general knowledge (log 9), which fix every entry. PI is a bijection whose only fixed point is 0, and follows
its closed form. RHO is 0 in lane 0 and distinct in 1..63 elsewhere, and the lane that the walk from (1, 0) by
`(x, y) <- (y, (2x + 3y) mod 5)` reaches at `t` has the offset `((t+1)(t+2)/2) mod 64`. Bit `2^j - 1` of RC[ir]
is `rc(j + 7 ir)`, the low bit of an 8-bit register that starts at 1 and at each tick shifts left, reduced by
`x^8 + x^6 + x^5 + x^4 + 1`; every other bit is 0. -/
def Obligations.ConstantTablesHaveTheirProperties : Prop :=
  (∀ i j : Fin 25, PI[i] = PI[j] → i = j) ∧
  (∀ i : Fin 25, PI[i] = i ↔ i = 0) ∧
  (∀ x y : Fin 5, (PI[x.val + 5 * y.val]'(by omega)).val = (x.val + 3 * y.val) % 5 + 5 * x.val) ∧
  (RHO[0] = 0 ∧ (∀ i : Fin 25, i ≠ 0 → RHO[i] ≠ 0) ∧ (∀ i j : Fin 25, RHO[i] = RHO[j] → i = j)) ∧
  (∀ t : Fin 24,
    let lane := (fun p : Fin 5 × Fin 5 => (p.2, 2 * p.1 + 3 * p.2))^[t.val] (1, 0)
    (RHO[lane.1.val + 5 * lane.2.val]'(by omega)).val = (t.val + 1) * (t.val + 2) / 2 % 64) ∧
  (∀ (ir : Fin 24) (b : Fin 64), RC[ir].getLsbD b.val = true → b.val ∈ [0, 1, 3, 7, 15, 31, 63]) ∧
  (∀ (ir : Fin 24) (j : Fin 7),
    RC[ir].getLsbD (2 ^ j.val - 1) =
      ((fun r : BitVec 8 => (r <<< 1) ^^^ (if r.getLsbD 7 then 0x71 else 0))^[j.val + 7 * ir.val] 1).getLsbD 0)

/-- R105, through THETA: with `C[x]` the XOR of column `x` and
`D[x] = C[(x+4) mod 5] XOR ROTL64(C[(x+1) mod 5], 1)`, lane `i` becomes `S[i] XOR D[i mod 5]`, all from
the state before; only S changes. -/
def Obligations.ThetaMixesTheColumnParities : Prop :=
  ∀ s : State, s.phase ≠ .fault →
    ∃ A : Lanes, exec .theta s = .next { s with lanes := A } ∧
      ∃ C D : Vector Lane 5,
        (∀ x : Fin 5, C[x] = s.lanes[x.val] ^^^ s.lanes[x.val + 5] ^^^ s.lanes[x.val + 10] ^^^
          s.lanes[x.val + 15] ^^^ s.lanes[x.val + 20]) ∧
        (∀ x : Fin 5, D[x] = C[(x.val + 4) % 5]'(by omega) ^^^
          (C[(x.val + 1) % 5]'(by omega)).rotateLeft 1) ∧
        (∀ i : Fin 25, A[i] = s.lane i ^^^ D[i.val % 5]'(by omega))

/-- R106, through RHO: lane `i` is rotated left by `RHO[i]`; only S changes. -/
def Obligations.RhoRotatesEachLaneByItsOffset : Prop :=
  ∀ s : State, s.phase ≠ .fault →
    ∃ A : Lanes, exec .rho s = .next { s with lanes := A } ∧
      ∀ i : Fin 25, A[i] = (s.lane i).rotateLeft RHO[i].val

/-- R107, through PI: the lane at `i` is the old lane at `PI[i]`; only S changes. -/
def Obligations.PiGathersTheLanes : Prop :=
  ∀ s : State, s.phase ≠ .fault →
    ∃ A : Lanes, exec .pi s = .next { s with lanes := A } ∧ ∀ i : Fin 25, A[i] = s.lane PI[i]

/-- R108, through CHI: for every row start and column,
`A'[y+x] = A[y+x] XOR ((NOT A[y+(x+1) mod 5]) AND A[y+(x+2) mod 5])`; only S changes. -/
def Obligations.ChiCombinesTheLanesOfEachRow : Prop :=
  ∀ s : State, s.phase ≠ .fault →
    ∃ A : Lanes, exec .chi s = .next { s with lanes := A } ∧
      ∀ r x : Fin 5,
        A[5 * r.val + x.val]'(by omega) =
          s.lanes[5 * r.val + x.val]'(by omega) ^^^
            (~~~(s.lanes[5 * r.val + (x.val + 1) % 5]'(by omega)) &&&
              s.lanes[5 * r.val + (x.val + 2) % 5]'(by omega))

/-- R109, through IOTA: for `ir` in 0..23 the round constant is XORed into lane 0 and every other lane
stays; only S changes. -/
def Obligations.IotaXorsTheRoundConstantIntoLaneZero : Prop :=
  ∀ (s : State) (ir : Fin 24), s.phase ≠ .fault →
    ∃ A : Lanes, exec (.iota ir.val) s = .next { s with lanes := A } ∧
      A[0] = s.lane 0 ^^^ RC[ir] ∧ ∀ i : Fin 25, i ≠ 0 → A[i] = s.lane i

/-- R110, through ROUND: one round is theta, rho, pi, chi, iota in that order; the command leaves the
state the five commands of ROUNDX leave. -/
def Obligations.RoundIsTheFiveOperationsInOrder : Prop :=
  ∀ (s : State) (ir : Fin 24), s.phase ≠ .fault →
    exec (.round ir.val) s = .next { s with lanes := iota (chi (Machine.pi (rho (theta s.lanes)))) ir } ∧
    execAll (roundx ir.val) s = exec (.round ir.val) s

/-- R130, through PERMUTE: with `A_0 = S` and `A_(k+1) = round(A_k, k)`, the command leaves `A_24`, and
only S changes. That the round counter, which exists only inside the command (R35), is the field
`roundCounter` and is `none` after it, is the model's reading (log 6). -/
def Obligations.PermuteRunsTheTwentyFourRounds : Prop :=
  ∀ s : State, s.phase ≠ .fault →
    ∃ A : Nat → Lanes, A 0 = s.lanes ∧ permute s.lanes = A 24 ∧
      (∀ k : Fin 24, A (k.val + 1) = Machine.round (A k.val) k) ∧
      exec .permute s = .next { s with lanes := A 24, roundCounter := none }

/-- 42_permutation.md section 3 (the spec's derived law): ROUND 0 to ROUND 23 leave the same state as one
PERMUTE. Between commands no round counter exists (R35), which is the field's value `none` (log 6). -/
def Obligations.TwentyFourRoundCommandsEqualPermute : Prop :=
  ∀ s : State, s.roundCounter = none → execAll rounds24 s = exec .permute s

/-- The permutation is a bijection on the states: 42_permutation.md section 3, a sentence (R134) that the
spec marks as taken from general knowledge and not from its source. -/
def Obligations.PermuteIsABijection : Prop := Function.Bijective permute

/-- 41_round_ops.md section 4 (the spec's derived laws): theta, rho and pi are linear over XOR; theta,
rho, pi and chi keep the zero state; a round of the zero state is its round constant. -/
def Obligations.LinearOperationsAndTheZeroState : Prop :=
  (∀ A B : Lanes,
    theta (Vector.zipWith (· ^^^ ·) A B) = Vector.zipWith (· ^^^ ·) (theta A) (theta B) ∧
    rho (Vector.zipWith (· ^^^ ·) A B) = Vector.zipWith (· ^^^ ·) (rho A) (rho B) ∧
    Machine.pi (Vector.zipWith (· ^^^ ·) A B) =
      Vector.zipWith (· ^^^ ·) (Machine.pi A) (Machine.pi B)) ∧
  theta zeroLanes = zeroLanes ∧ rho zeroLanes = zeroLanes ∧ Machine.pi zeroLanes = zeroLanes ∧
  chi zeroLanes = zeroLanes ∧
  (∀ ir : Fin 24, Machine.round zeroLanes ir = zeroLanes.set 0 RC[ir])

/-! ### Padding -/

/-- 43_padding.md sections 1 and 2: PAD with a legal tail length keeps the tail, puts 0x1F after it,
zeros, and 0x80 into byte 167 (0x9F where the two meet, r = 167), and leaves `BUF[168..199]`; only BUF
changes. -/
def Obligations.PadReplacesTheTailByItsPaddedBlock : Prop :=
  ∀ (s : State) (r : Nat), s.phase ≠ .fault → r < 168 →
    ∃ B : Buffer, exec (.pad r) s = .next { s with buf := B } ∧
      ∀ j : Fin 200,
        B[j] =
          if j.val < r then s.bufByte j
          else if 168 ≤ j.val then s.bufByte j
          else if j.val = 167 then (if r = 167 then 0x9F else 0x80)
          else if j.val = r then 0x1F
          else 0x00

/-- R140 and R141: the padded block, built by XOR from a zero block; with `r = 167` its last byte is
0x9F. -/
def Obligations.PadXorsTheSuffixAndTheEndMarker : Prop :=
  ∀ rem : List Byte, rem.length < 168 →
    (∀ j : Fin 168,
      (pad rem)[j] =
        (if h : j.val < rem.length then rem[j.val] else 0x00) ^^^
          (if j.val = rem.length then 0x1F else 0x00) ^^^ (if j.val = 167 then 0x80 else 0x00)) ∧
    (rem.length = 167 → (pad rem)[167] = 0x9F)

/-! ### The sponge -/

/-- 44_sponge.md section 2, INIT: zero lanes, OUTREM and LASTK zero, phase ABSORB, in every phase but
FAULT; nothing else changes. -/
def Obligations.InitStartsAComputation : Prop :=
  ∀ s : State, s.phase ≠ .fault →
    ∃ A : Lanes, exec .init s = .next { s with lanes := A, outrem := 0, lastk := 0, phase := .absorb } ∧
      ∀ i : Fin 25, A[i] = 0

/-- 44_sponge.md section 2, ABSORB, and 40_codec.md section 2, which says that it is XORRATE followed by
PERMUTE: in phase ABSORB it leaves `permute(absorbXor(S, BUF[0..167]))`; of the core's observable state only S
changes. That the hidden round counter (R35) is a field, `none` after the command, is the model's choice
(log 6). -/
def Obligations.AbsorbIsXorrateThenPermute : Prop :=
  ∀ s : State, s.phase = .absorb →
    exec .absorb s = execAll [.xorrate, .permute] s ∧
    ∃ blk : Block, (∀ j : Fin 168, blk[j] = s.buf[j.val]) ∧
      exec .absorb s =
        .next { s with lanes := permute (absorbXor s.lanes blk), roundCounter := none }

/-- 44_sponge.md section 2, FINAL: with a valid length and tail it leaves in BUF what PAD leaves, in S
what ABSORB of that block leaves, OUTREM = OUTLEN, LASTK = 0, and phase SQUEEZE, or IDLE for length 0;
nothing else of the core's observable state changes. That the hidden round counter is a field, `none` after the
command, is the model's choice (log 6). -/
def Obligations.FinalPadsAbsorbsAndStartsSqueezing : Prop :=
  ∀ (s : State) (r : Nat), s.phase = .absorb → 0 ≤ sint64 s.outlen → r < 168 →
    ∃ (B : Buffer) (A : Lanes),
      exec (.pad r) s = .next { s with buf := B } ∧
      exec .absorb { s with buf := B } = .next { s with buf := B, lanes := A, roundCounter := none } ∧
      exec (.final r) s =
        .next { s with
          buf := B, lanes := A, roundCounter := none, outrem := s.outlen, lastk := 0,
          phase := if 0 < sint64 s.outlen then .squeeze else .idle }

/-- 44_sponge.md section 2, SQUEEZE: in phase SQUEEZE it puts the serialization of S into BUF, sets LASTK
to `k = min(168, OUTREM)` and subtracts `k` from OUTREM; if bytes are still needed it permutes S, and
otherwise it keeps S and goes to IDLE; nothing else of the core's observable state changes. That the hidden
round counter is a field, `none` after a permutation, is the model's choice (log 6). -/
def Obligations.SqueezeEmitsAndPermutesOnlyIfNeeded : Prop :=
  ∀ s : State, s.phase = .squeeze →
    ∃ (B : Buffer) (k rem : BitVec 64),
      exec .s2b s = .next { s with buf := B } ∧
      k.toNat = min 168 s.outrem.toNat ∧ rem.toNat = s.outrem.toNat - k.toNat ∧
      (168 < s.outrem.toNat →
        exec .squeeze s =
          .next { s with
            buf := B, lastk := k, outrem := rem, lanes := permute s.lanes, roundCounter := none }) ∧
      (s.outrem.toNat ≤ 168 →
        exec .squeeze s = .next { s with buf := B, lastk := k, outrem := rem, phase := .idle })

/-- R205: OUTLEN is read only by FINAL. Another OUTLEN changes nothing else in the outcome of any other
command. -/
def Obligations.OutlenIsReadOnlyByFinal : Prop :=
  ∀ (i : Instr) (s t : State) (v : BitVec 64), (∀ r, i ≠ .final r) → exec i s = .next t →
    exec i { s with outlen := v } = .next { t with outlen := v }

/-- 70_reset_and_hazards.md section 2 (the spec's derived law) and 44_sponge.md section 2: what ABSORB does to
S depends on BUF only through `BUF[0..167]`, what FINAL does to S and to `BUF[0..167]` only through
`BUF[0..r-1]`, and SQUEEZE reads no BUF byte. 40_codec.md section 2 (R87, "`BUF[168..199]` is never read"): what
XORRATE does to S depends on BUF only through `BUF[0..167]` too. -/
def Obligations.CommandsReadOnlyTheStagedBytes : Prop :=
  ∀ (s t t' : State) (b : Buffer) (r : Nat),
    ((∀ j : Fin 168, b[j.val] = s.buf[j.val]) →
      ∀ i : Instr, i = .absorb ∨ i = .xorrate → exec i s = .next t → exec i { s with buf := b } = .next t' →
        t'.lanes = t.lanes) ∧
    ((∀ j : Fin 200, j.val < r → b[j] = s.buf[j]) →
      s.phase = .absorb → 0 ≤ sint64 s.outlen → r < 168 → exec (.final r) s = .next t →
        exec (.final r) { s with buf := b } = .next t' →
          t'.lanes = t.lanes ∧ ∀ j : Fin 168, t'.buf[j.val] = t.buf[j.val]) ∧
    (s.phase = .squeeze → exec .squeeze { s with buf := b } = exec .squeeze s)

/-- 44_sponge.md section 1 (the spec's derived law): the output has the length asked for, and a shorter
output is a prefix of a longer one. -/
def Obligations.ShakeOutputsAreExactAndPrefixConsistent : Prop :=
  ∀ (m : List Byte) (n n' : Nat), n < n' →
    ∃ out out' : List Byte, shake128 m n = some out ∧ shake128 m n' = some out' ∧
      out.length = n ∧ out'.length = n' ∧ out = out'.take n

/-- 44_sponge.md section 3 (the spec's derived law on the host program of the pseudo-instruction SHAKE,
modelled in log 10): started in any phase but FAULT, it ends with PH = IDLE, OUTREM = 0, the bytes it
read from BUF being `shake128(m, n)`; for a negative length FINAL faults with InvalidArgument and
nothing is read from BUF. -/
def Obligations.ShakeHostSequenceComputesShake128 : Prop :=
  ∀ (m : List Byte) (n : BitVec 64) (s : State) (rest : List HostOp),
    s.phase ≠ .fault → s.busy = false → s.pending = shakeProgram m n ++ rest →
      ∃ (steps : Nat) (t : State), runSteps steps s = .next t ∧ t.pending = rest ∧
        (0 ≤ sint64 n →
          t.phase = .idle ∧ t.outrem = 0 ∧
            ∃ out, shake128 m (sint64 n) = some out ∧
              outputBytes t.responses = outputBytes s.responses ++ out) ∧
        (sint64 n < 0 →
          shake128 m (sint64 n) = none ∧ t.phase = .fault ∧ t.err = some .invalidArgument ∧
            outputBytes t.responses = outputBytes s.responses)

/-! ### Whole-machine rules -/

/-- 10_state.md section 1, the column "written by", and R26 for PH: outside fault entry, each piece of state
changes only by the commands listed for it, and no command writes OUTLEN. 43_padding.md section 2 (R143) and
44_sponge.md section 2 (R160): PAD and FINAL keep `BUF[168..199]`. The model's choices: the round counter is the
field for the hidden state of R35 (log 6), and no command touches the host's side, the fields `pending` (log 1)
and `responses` (log 3). -/
def Obligations.CommandsWriteOnlyTheirOwnState : Prop :=
  ∀ (i : Instr) (s t : State), exec i s = .next t →
    t.outlen = s.outlen ∧ t.pending = s.pending ∧ t.responses = s.responses ∧
    (t.errcmd ≠ s.errcmd ∨ t.err ≠ s.err ∨ t.busy ≠ s.busy → s.phase ≠ .fault ∧ t.phase = .fault) ∧
    (t.phase ≠ s.phase → t.phase = .fault ∨ i = .init ∨ i = .squeeze ∨ ∃ r, i = .final r) ∧
    (t.lanes ≠ s.lanes → i ≠ .s2b ∧ ∀ r, i ≠ .pad r) ∧
    (t.buf ≠ s.buf → i = .s2b ∨ i = .squeeze ∨ ∃ r, i = .pad r ∨ i = .final r) ∧
    (t.outrem ≠ s.outrem ∨ t.lastk ≠ s.lastk → i = .init ∨ i = .squeeze ∨ ∃ r, i = .final r) ∧
    (t.roundCounter ≠ s.roundCounter →
      i = .permute ∨ i = .absorb ∨ i = .squeeze ∨ ∃ r, i = .final r) ∧
    ((∃ r, i = .pad r ∨ i = .final r) → ∀ j : Fin 200, 168 ≤ j.val → t.bufByte j = s.bufByte j)

/-- Every command answers a next state in every state, in the fault state and for every operand too: an
error is a next state (R185, R186), never a stop. If it is an error, it is fault entry with `encode i` as the
recorded word, which is the model's reading of the issued word (log 12). -/
def Obligations.EveryCommandAnswersANextState : Prop :=
  ∀ (i : Instr) (s : State), ∃ t : State, exec i s = .next t ∧ (s.busy = false → t.busy = false) ∧
    (s.phase ≠ .fault → t.phase = .fault → ∃ code : ErrorCode, t = s.raiseFault code (encode i))

/-- The reset state meets the invariant of Safety.lean. Its clause that no round counter exists (R35) is the
model's choice at reset: the spec gives that hidden state no reset value (log 6). -/
def Obligations.ResetMeetsTheInvariant : Prop := State.reset.Inv

/-- R27, R28, R30, R31, R32 and R35 as an invariant: ERR is non-zero exactly in FAULT, BUSY is 0, no round
counter exists, OUTREM is below 2^63, non-zero in SQUEEZE and zero in IDLE and ABSORB, LASTK is at most
168, and ERRCMD has a zero upper half and is 0 before the first fault. Every step keeps it. That the
round counter is a field, `none` between commands, is the model's choice (log 6). -/
def Obligations.EveryStepKeepsTheInvariant : Prop :=
  ∀ s t : State, s.Inv → step s = .next t → t.Inv

/-- R42, R189 and R206 as a progress rule: a host whose accesses the map admits always gets a step, and
the actions it still has are admitted. That those actions stand in `pending` is the model's choice (log 1). -/
def Obligations.AdmittedHostIsNeverStuck : Prop :=
  ∀ s : State, s.Inv → s.HostAdmitted → ∃ t : State, step s = .next t ∧ t.HostAdmitted

/-! ### The host register map -/

/-- R42: an access to a reserved offset, of a width other than the one the table of R41 gives, or not at
the first byte of a register gets no step, in any state: neither a write nor a read. -/
def Obligations.AccessesOutsideTheMapAreStuck : Prop :=
  ∀ (s : State) (off : Offset) (width : Nat) (v : BitVec 64),
    ¬ ((off.toNat ≤ 0x0C7 ∧ width = 1) ∨
       (0x100 ≤ off.toNat ∧ off.toNat ≤ 0x1C0 ∧ off.toNat % 8 = 0 ∧ width = 8) ∨
       (off = 0x200 ∧ width = 4) ∨
       ((off = 0x208 ∨ off = 0x210 ∨ off = 0x218 ∨ off = 0x220 ∨ off = 0x228) ∧ width = 8)) →
    busWrite off width v s = .fault .inadmissibleAccess ∧
    busRead off width s = .fault .inadmissibleAccess

/-- R43: `MemWrite(j, 1, v)` does `BUF[j] <- v[7:0]` and nothing else, and `MemRead(j, 1)` returns
`BUF[j]`, in every phase. (BUSY is 0 between accesses, R28.) -/
def Obligations.BufferAccessesReadAndWriteOneByte : Prop :=
  ∀ (s : State) (j : Fin 200) (v : BitVec 64), s.busy = false →
    (∃ B : Buffer, busWrite (BitVec.ofNat 12 j.val) 1 v s = .next { s with buf := B } ∧
      B[j] = v.extractLsb' 0 8 ∧ ∀ j' : Fin 200, j' ≠ j → B[j'] = s.bufByte j') ∧
    readValue (BitVec.ofNat 12 j.val) 1 s = some ((s.bufByte j).setWidth 64)

/-- R44: `MemWrite(0x100 + 8i, 8, v)` does `S[i] <- v` and nothing else, and `MemRead(0x100 + 8i, 8)`
returns `S[i]`, in every phase. (BUSY is 0 between accesses, R28.) -/
def Obligations.LaneAccessesReadAndWriteOneLane : Prop :=
  ∀ (s : State) (i : Fin 25) (v : BitVec 64), s.busy = false →
    (∃ A : Lanes, busWrite (BitVec.ofNat 12 (0x100 + 8 * i.val)) 8 v s = .next { s with lanes := A } ∧
      A[i] = v ∧ ∀ i' : Fin 25, i' ≠ i → A[i'] = s.lane i') ∧
    readValue (BitVec.ofNat 12 (0x100 + 8 * i.val)) 8 s = some (s.lane i)

/-- R46: the 8-byte reads of 0x208, 0x218, 0x220 and 0x228 return STATUS, OUTREM, LASTK and ERRCMD, and
writes there are ignored. Also OUTLEN (read and written at 0x210) and CMD (which reads as 0). (BUSY is 0
between accesses, R28.) -/
def Obligations.RegisterAccessesFollowTheMap : Prop :=
  ∀ (s : State) (v : BitVec 64), s.busy = false →
    readValue 0x208 8 s = some s.statusWord ∧ readValue 0x218 8 s = some s.outrem ∧
    readValue 0x220 8 s = some s.lastk ∧ readValue 0x228 8 s = some s.errcmd ∧
    (∀ off ∈ [(0x208 : Offset), 0x218, 0x220, 0x228], busWrite off 8 v s = .next s) ∧
    readValue 0x210 8 s = some s.outlen ∧ busWrite 0x210 8 v s = .next { s with outlen := v } ∧
    readValue 0x200 4 s = some 0

/-- 20_memory.md section 4: an admitted read changes nothing but the host's log of what it read (log 3),
and a second read of the same location returns the same value. -/
def Obligations.ReadsHaveNoSideEffectAndAreIdempotent : Prop :=
  ∀ (s t : State) (off : Offset) (width : Nat), busRead off width s = .next t →
    ∃ v : BitVec 64, readValue off width s = some v ∧
      t = { s with responses := s.responses ++ [⟨off, v⟩] } ∧
      busRead off width t = .next { t with responses := t.responses ++ [⟨off, v⟩] }

/-- R206: while BUSY = 1 the host may read STATUS, and any other admitted access gets no step. -/
def Obligations.BusyAdmitsOnlyTheStatusRead : Prop :=
  ∀ (s : State) (off : Offset) (width : Nat) (v : BitVec 64), s.busy = true →
    (mapEntry off width).isSome = true →
      busWrite off width v s = .fault .accessWhileBusy ∧
      (off ≠ 0x208 → busRead off width s = .fault .accessWhileBusy) ∧
      busRead 0x208 8 s =
        .next { s with responses := s.responses ++ [⟨0x208, s.statusWord⟩] }

/-- R25: the fields of STATUS: PH in bits 1:0 with the codes of R26, BUSY in bit 2, ERR in bits 10:8 with
the codes of R27, and zero in every other bit; its reset value is 0; the host reads it at 0x208, and host
writes to it are ignored. -/
def Obligations.StatusWordHasItsFields : Prop :=
  State.reset.statusWord = 0 ∧
  ∀ s : State,
    readValue 0x208 8 s = some s.statusWord ∧
    (∀ v, s.busy = false → busWrite 0x208 8 v s = .next s) ∧
    s.statusWord.extractLsb' 0 2 =
      (match s.phase with | .idle => 0#2 | .absorb => 1#2 | .squeeze => 2#2 | .fault => 3#2) ∧
    s.statusWord.getLsbD 2 = s.busy ∧
    s.statusWord.extractLsb' 3 5 = 0 ∧
    s.statusWord.extractLsb' 8 3 =
      (match s.err with
        | none => 0#3
        | some .invalidArgument => 1#3
        | some .padPrecondition => 2#3
        | some .illegalCommand => 3#3
        | some .phaseError => 4#3
        | some .operandRange => 5#3) ∧
    s.statusWord.extractLsb' 11 53 = 0

/-- R48: byte `k` of the 8-byte access to LANE[i] is byte `8i + k` of `stateToBytes(S)`. -/
def Obligations.LaneWindowIsLittleEndian : Prop :=
  ∀ (s : State) (i : Fin 25) (k : Fin 8),
    (readEntry s (.lane i)).extractLsb' (8 * k.val) 8 =
      (stateToBytes s.lanes)[8 * i.val + k.val]'(by omega)

/-- R40 and D2: an access at BASE_ADDR plus an offset is the access at the offset, whatever BASE_ADDR is,
and an address outside the 4 KiB is no access to the map. -/
def Obligations.AddressesAreOffsetsFromTheBase : Prop :=
  ∀ (addr width : Nat) (off : Offset) (v : BitVec 64),
    memWrite (Config.baseAddr + off.toNat) width v = some (.write off width v) ∧
    memRead (Config.baseAddr + off.toNat) width = some (.read off width) ∧
    (addr < Config.baseAddr ∨ Config.baseAddr + 0x1000 ≤ addr →
      memWrite addr width v = none ∧ memRead addr width = none)
end

