-- ==== Sys2Proof/Laws/Decode.lean ====
section
/-! SUPPORT. The fields of an encoded word, and a word put together from its fields. -/

namespace Sys2Proof

theorem opField_eq (w : CommandWord) : opField w = w.toNat % 256 := by
  simp [opField, BitVec.extractLsb'_toNat]

theorem aField_eq (w : CommandWord) : aField w = w.toNat / 256 % 256 := by
  simp [aField, BitVec.extractLsb'_toNat, Nat.shiftRight_eq_div_pow]

theorem rsvField_eq (w : CommandWord) : rsvField w = w.toNat / 65536 := by
  have h := w.isLt
  simp [rsvField, BitVec.extractLsb'_toNat, Nat.shiftRight_eq_div_pow]; omega

theorem aField_lt (w : CommandWord) : aField w < 256 := by rw [aField_eq]; omega

/-- The number of a word built from an operand and an opcode. -/
theorem word_toNat (a op : Nat) (ha : a < 256) (ho : op < 256) :
    ((BitVec.ofNat 32 a <<< 8) ||| BitVec.ofNat 32 op : CommandWord).toNat = 256 * a + op := by
  have h1 : a % 4294967296 = a := by omega
  have h2 : op % 4294967296 = op := by omega
  have h3 : (a <<< 8) % 4294967296 = a <<< 8 := by rw [Nat.shiftLeft_eq]; omega
  simp only [BitVec.toNat_or, BitVec.toNat_shiftLeft, BitVec.toNat_ofNat, Nat.reducePow, h1, h2, h3]
  rw [← Nat.shiftLeft_add_eq_or_of_lt (by omega), Nat.shiftLeft_eq]; omega

theorem opcode_lt (i : Instr) : i.opcode < 256 := by cases i <;> simp [Instr.opcode]

theorem operand_lt {i : Instr} (h : i.wf = true) : i.operand?.getD 0 < 256 := by
  unfold Instr.wf at h
  cases i <;> simp_all [Instr.operand?]

theorem encode_toNat {i : Instr} (h : i.wf = true) :
    (encode i).toNat = 256 * i.operand?.getD 0 + i.opcode :=
  word_toNat _ _ (operand_lt h) (opcode_lt i)

/-- A word whose RSV field is zero is its fields put together. -/
theorem word_of_fields {w : CommandWord} (h : rsvField w = 0) :
    (BitVec.ofNat 32 (aField w) <<< 8) ||| BitVec.ofNat 32 (opField w) = w := by
  apply BitVec.eq_of_toNat_eq
  have := aField_lt w
  have hw := w.isLt
  rw [word_toNat _ _ this (by rw [opField_eq]; omega)]
  rw [rsvField_eq] at h
  rw [aField_eq, opField_eq]; omega

/-- Everything a command without an operand needs to decode (R60). -/
theorem bareCommand_ok {w : CommandWord} {i j : Instr} :
    bareCommand w i = .ok j ↔ rsvField w = 0 ∧ aField w = 0 ∧ i = j := by
  unfold bareCommand; split
  · simp_all
  · split <;> simp_all

/-- Everything a command with an operand needs to decode (R60). -/
theorem operandCommand_ok {w : CommandWord} {f : Nat → Instr} {j : Instr} :
    operandCommand w f = .ok j ↔ rsvField w = 0 ∧ f (aField w) = j := by
  unfold operandCommand; split <;> simp_all

end Sys2Proof
end

