-- ==== Sys2Proof/Laws/State.lean ====
section
/-! SUPPORT. What each named update of the state does to each field. -/

namespace Sys2Proof.Machine

variable (s : State)

@[simp] theorem setLanes_lanes (A : Lanes) : (s.setLanes A).lanes = A := rfl
@[simp] theorem setLanes_buf (A : Lanes) : (s.setLanes A).buf = s.buf := rfl
@[simp] theorem setLanes_phase (A : Lanes) : (s.setLanes A).phase = s.phase := rfl
@[simp] theorem setLanes_busy (A : Lanes) : (s.setLanes A).busy = s.busy := rfl
@[simp] theorem setLanes_err (A : Lanes) : (s.setLanes A).err = s.err := rfl
@[simp] theorem setLanes_outlen (A : Lanes) : (s.setLanes A).outlen = s.outlen := rfl
@[simp] theorem setLanes_outrem (A : Lanes) : (s.setLanes A).outrem = s.outrem := rfl
@[simp] theorem setLanes_lastk (A : Lanes) : (s.setLanes A).lastk = s.lastk := rfl
@[simp] theorem setLanes_errcmd (A : Lanes) : (s.setLanes A).errcmd = s.errcmd := rfl
@[simp] theorem setLanes_roundCounter (A : Lanes) : (s.setLanes A).roundCounter = s.roundCounter := rfl
@[simp] theorem setLanes_pending (A : Lanes) : (s.setLanes A).pending = s.pending := rfl
@[simp] theorem setLanes_responses (A : Lanes) : (s.setLanes A).responses = s.responses := rfl

@[simp] theorem setLane_lanes (i : Fin 25) (v : Lane) : (s.setLane i v).lanes = s.lanes.set i v := rfl
@[simp] theorem setLane_buf (i : Fin 25) (v : Lane) : (s.setLane i v).buf = s.buf := rfl
@[simp] theorem setLane_phase (i : Fin 25) (v : Lane) : (s.setLane i v).phase = s.phase := rfl
@[simp] theorem setLane_busy (i : Fin 25) (v : Lane) : (s.setLane i v).busy = s.busy := rfl
@[simp] theorem setLane_err (i : Fin 25) (v : Lane) : (s.setLane i v).err = s.err := rfl
@[simp] theorem setLane_outlen (i : Fin 25) (v : Lane) : (s.setLane i v).outlen = s.outlen := rfl
@[simp] theorem setLane_outrem (i : Fin 25) (v : Lane) : (s.setLane i v).outrem = s.outrem := rfl
@[simp] theorem setLane_lastk (i : Fin 25) (v : Lane) : (s.setLane i v).lastk = s.lastk := rfl
@[simp] theorem setLane_errcmd (i : Fin 25) (v : Lane) : (s.setLane i v).errcmd = s.errcmd := rfl
@[simp] theorem setLane_roundCounter (i : Fin 25) (v : Lane) : (s.setLane i v).roundCounter = s.roundCounter := rfl
@[simp] theorem setLane_pending (i : Fin 25) (v : Lane) : (s.setLane i v).pending = s.pending := rfl
@[simp] theorem setLane_responses (i : Fin 25) (v : Lane) : (s.setLane i v).responses = s.responses := rfl

@[simp] theorem setBuf_lanes (b : Buffer) : (s.setBuf b).lanes = s.lanes := rfl
@[simp] theorem setBuf_buf (b : Buffer) : (s.setBuf b).buf = b := rfl
@[simp] theorem setBuf_phase (b : Buffer) : (s.setBuf b).phase = s.phase := rfl
@[simp] theorem setBuf_busy (b : Buffer) : (s.setBuf b).busy = s.busy := rfl
@[simp] theorem setBuf_err (b : Buffer) : (s.setBuf b).err = s.err := rfl
@[simp] theorem setBuf_outlen (b : Buffer) : (s.setBuf b).outlen = s.outlen := rfl
@[simp] theorem setBuf_outrem (b : Buffer) : (s.setBuf b).outrem = s.outrem := rfl
@[simp] theorem setBuf_lastk (b : Buffer) : (s.setBuf b).lastk = s.lastk := rfl
@[simp] theorem setBuf_errcmd (b : Buffer) : (s.setBuf b).errcmd = s.errcmd := rfl
@[simp] theorem setBuf_roundCounter (b : Buffer) : (s.setBuf b).roundCounter = s.roundCounter := rfl
@[simp] theorem setBuf_pending (b : Buffer) : (s.setBuf b).pending = s.pending := rfl
@[simp] theorem setBuf_responses (b : Buffer) : (s.setBuf b).responses = s.responses := rfl

@[simp] theorem setBufByte_lanes (j : Fin 200) (v : Byte) : (s.setBufByte j v).lanes = s.lanes := rfl
@[simp] theorem setBufByte_buf (j : Fin 200) (v : Byte) : (s.setBufByte j v).buf = s.buf.set j v := rfl
@[simp] theorem setBufByte_phase (j : Fin 200) (v : Byte) : (s.setBufByte j v).phase = s.phase := rfl
@[simp] theorem setBufByte_busy (j : Fin 200) (v : Byte) : (s.setBufByte j v).busy = s.busy := rfl
@[simp] theorem setBufByte_err (j : Fin 200) (v : Byte) : (s.setBufByte j v).err = s.err := rfl
@[simp] theorem setBufByte_outlen (j : Fin 200) (v : Byte) : (s.setBufByte j v).outlen = s.outlen := rfl
@[simp] theorem setBufByte_outrem (j : Fin 200) (v : Byte) : (s.setBufByte j v).outrem = s.outrem := rfl
@[simp] theorem setBufByte_lastk (j : Fin 200) (v : Byte) : (s.setBufByte j v).lastk = s.lastk := rfl
@[simp] theorem setBufByte_errcmd (j : Fin 200) (v : Byte) : (s.setBufByte j v).errcmd = s.errcmd := rfl
@[simp] theorem setBufByte_roundCounter (j : Fin 200) (v : Byte) : (s.setBufByte j v).roundCounter = s.roundCounter := rfl
@[simp] theorem setBufByte_pending (j : Fin 200) (v : Byte) : (s.setBufByte j v).pending = s.pending := rfl
@[simp] theorem setBufByte_responses (j : Fin 200) (v : Byte) : (s.setBufByte j v).responses = s.responses := rfl

@[simp] theorem setRateBlock_buf (P : Block) : (s.setRateBlock P).buf = overlayBlock s.buf P := rfl
@[simp] theorem setRateBlock_lanes (P : Block) : (s.setRateBlock P).lanes = s.lanes := rfl
@[simp] theorem setRateBlock_phase (P : Block) : (s.setRateBlock P).phase = s.phase := rfl
@[simp] theorem setRateBlock_busy (P : Block) : (s.setRateBlock P).busy = s.busy := rfl
@[simp] theorem setRateBlock_err (P : Block) : (s.setRateBlock P).err = s.err := rfl
@[simp] theorem setRateBlock_outlen (P : Block) : (s.setRateBlock P).outlen = s.outlen := rfl
@[simp] theorem setRateBlock_outrem (P : Block) : (s.setRateBlock P).outrem = s.outrem := rfl
@[simp] theorem setRateBlock_lastk (P : Block) : (s.setRateBlock P).lastk = s.lastk := rfl
@[simp] theorem setRateBlock_errcmd (P : Block) : (s.setRateBlock P).errcmd = s.errcmd := rfl
@[simp] theorem setRateBlock_roundCounter (P : Block) : (s.setRateBlock P).roundCounter = s.roundCounter := rfl
@[simp] theorem setRateBlock_pending (P : Block) : (s.setRateBlock P).pending = s.pending := rfl
@[simp] theorem setRateBlock_responses (P : Block) : (s.setRateBlock P).responses = s.responses := rfl

@[simp] theorem raiseFault_lanes (code : ErrorCode) (w : CommandWord) : (s.raiseFault code w).lanes = s.lanes := rfl
@[simp] theorem raiseFault_buf (code : ErrorCode) (w : CommandWord) : (s.raiseFault code w).buf = s.buf := rfl
@[simp] theorem raiseFault_phase (code : ErrorCode) (w : CommandWord) : (s.raiseFault code w).phase = .fault := rfl
@[simp] theorem raiseFault_busy (code : ErrorCode) (w : CommandWord) : (s.raiseFault code w).busy = false := rfl
@[simp] theorem raiseFault_err (code : ErrorCode) (w : CommandWord) : (s.raiseFault code w).err = some code := rfl
@[simp] theorem raiseFault_outlen (code : ErrorCode) (w : CommandWord) : (s.raiseFault code w).outlen = s.outlen := rfl
@[simp] theorem raiseFault_outrem (code : ErrorCode) (w : CommandWord) : (s.raiseFault code w).outrem = s.outrem := rfl
@[simp] theorem raiseFault_lastk (code : ErrorCode) (w : CommandWord) : (s.raiseFault code w).lastk = s.lastk := rfl
@[simp] theorem raiseFault_errcmd (code : ErrorCode) (w : CommandWord) : (s.raiseFault code w).errcmd = w.setWidth 64 := rfl
@[simp] theorem raiseFault_roundCounter (code : ErrorCode) (w : CommandWord) : (s.raiseFault code w).roundCounter = s.roundCounter := rfl
@[simp] theorem raiseFault_pending (code : ErrorCode) (w : CommandWord) : (s.raiseFault code w).pending = s.pending := rfl
@[simp] theorem raiseFault_responses (code : ErrorCode) (w : CommandWord) : (s.raiseFault code w).responses = s.responses := rfl

@[simp] theorem applyReset_lanes : (s.applyReset).lanes = Vector.replicate 25 0 := rfl
@[simp] theorem applyReset_buf : (s.applyReset).buf = Vector.replicate 200 0 := rfl
@[simp] theorem applyReset_phase : (s.applyReset).phase = .idle := rfl
@[simp] theorem applyReset_busy : (s.applyReset).busy = false := rfl
@[simp] theorem applyReset_err : (s.applyReset).err = none := rfl
@[simp] theorem applyReset_outlen : (s.applyReset).outlen = 0 := rfl
@[simp] theorem applyReset_outrem : (s.applyReset).outrem = 0 := rfl
@[simp] theorem applyReset_lastk : (s.applyReset).lastk = 0 := rfl
@[simp] theorem applyReset_errcmd : (s.applyReset).errcmd = 0 := rfl
@[simp] theorem applyReset_roundCounter : (s.applyReset).roundCounter = none := rfl
@[simp] theorem applyReset_pending : (s.applyReset).pending = s.pending := rfl
@[simp] theorem applyReset_responses : (s.applyReset).responses = s.responses := rfl

@[simp] theorem respond_lanes (off : Offset) (v : BitVec 64) : (s.respond off v).lanes = s.lanes := rfl
@[simp] theorem respond_buf (off : Offset) (v : BitVec 64) : (s.respond off v).buf = s.buf := rfl
@[simp] theorem respond_phase (off : Offset) (v : BitVec 64) : (s.respond off v).phase = s.phase := rfl
@[simp] theorem respond_busy (off : Offset) (v : BitVec 64) : (s.respond off v).busy = s.busy := rfl
@[simp] theorem respond_err (off : Offset) (v : BitVec 64) : (s.respond off v).err = s.err := rfl
@[simp] theorem respond_outlen (off : Offset) (v : BitVec 64) : (s.respond off v).outlen = s.outlen := rfl
@[simp] theorem respond_outrem (off : Offset) (v : BitVec 64) : (s.respond off v).outrem = s.outrem := rfl
@[simp] theorem respond_lastk (off : Offset) (v : BitVec 64) : (s.respond off v).lastk = s.lastk := rfl
@[simp] theorem respond_errcmd (off : Offset) (v : BitVec 64) : (s.respond off v).errcmd = s.errcmd := rfl
@[simp] theorem respond_roundCounter (off : Offset) (v : BitVec 64) : (s.respond off v).roundCounter = s.roundCounter := rfl
@[simp] theorem respond_pending (off : Offset) (v : BitVec 64) : (s.respond off v).pending = s.pending := rfl
@[simp] theorem respond_responses (off : Offset) (v : BitVec 64) : (s.respond off v).responses = s.responses ++ [⟨off, v⟩] := rfl

@[simp] theorem setPending_lanes (ops : List HostOp) : (s.setPending ops).lanes = s.lanes := rfl
@[simp] theorem setPending_buf (ops : List HostOp) : (s.setPending ops).buf = s.buf := rfl
@[simp] theorem setPending_phase (ops : List HostOp) : (s.setPending ops).phase = s.phase := rfl
@[simp] theorem setPending_busy (ops : List HostOp) : (s.setPending ops).busy = s.busy := rfl
@[simp] theorem setPending_err (ops : List HostOp) : (s.setPending ops).err = s.err := rfl
@[simp] theorem setPending_outlen (ops : List HostOp) : (s.setPending ops).outlen = s.outlen := rfl
@[simp] theorem setPending_outrem (ops : List HostOp) : (s.setPending ops).outrem = s.outrem := rfl
@[simp] theorem setPending_lastk (ops : List HostOp) : (s.setPending ops).lastk = s.lastk := rfl
@[simp] theorem setPending_errcmd (ops : List HostOp) : (s.setPending ops).errcmd = s.errcmd := rfl
@[simp] theorem setPending_roundCounter (ops : List HostOp) : (s.setPending ops).roundCounter = s.roundCounter := rfl
@[simp] theorem setPending_pending (ops : List HostOp) : (s.setPending ops).pending = ops := rfl
@[simp] theorem setPending_responses (ops : List HostOp) : (s.setPending ops).responses = s.responses := rfl

end Sys2Proof.Machine
end

