-- ==== Sys2Proof/Laws/Ops.lean ====
section
/-! SUPPORT. What the shared operations do: the fault-state guard, the reads of lanes and bytes, the
operand checks, and the fields of STATUS. -/

namespace Sys2Proof.Machine

@[simp] theorem tabulate_get {α : Type} {n : Nat} (f : Fin n → α) (i : Nat) (h : i < n) :
    (tabulate f)[i] = f ⟨i, h⟩ := by
  unfold tabulate; rw [Vector.getElem_ofFn]

/-- Two vectors with the same entries are equal. -/
theorem vector_ext {α : Type} {n : Nat} {a b : Vector α n} (h : ∀ i : Fin n, a[i] = b[i]) : a = b :=
  Vector.ext fun i hi => h ⟨i, hi⟩

/-- Everything the guard of R186 can answer. -/
theorem unlessFault_eq (s t : State) :
    unlessFault s t = .next (if s.phase = .fault then s else t) := by
  unfold unlessFault; split <;> simp_all

theorem unlessFault_of_ne {s t : State} (h : s.phase ≠ .fault) : unlessFault s t = .next t := by
  simp [unlessFault_eq, h]

theorem unlessFault_of_eq {s t : State} (h : s.phase = .fault) : unlessFault s t = .next s := by
  simp [unlessFault_eq, h]

theorem rateBlock_get (s : State) (j : Fin 168) : s.rateBlock[j] = s.buf[j.val] := by
  simp [State.rateBlock]

theorem setRateBlock_get (s : State) (P : Block) (j : Fin 200) :
    (s.setRateBlock P).buf[j] = if h : j.val < 168 then P[j.val] else s.buf[j] := by
  simp [overlayBlock]

/-- Writing a block and reading it back. -/
@[simp] theorem rateBlock_setRateBlock (s : State) (P : Block) : (s.setRateBlock P).rateBlock = P := by
  apply Vector.ext; intro j hj; simp [State.rateBlock, overlayBlock]

theorem bufHead_getD (s : State) (n j : Nat) :
    (s.bufHead n).getD j 0 = if h : j < n ∧ j < 200 then s.buf[j]'h.2 else 0 := by
  unfold State.bufHead
  by_cases h : j < n ∧ j < 200
  · simp [h, List.getD_eq_getElem?_getD]
  · simp only [h, dite_false]
    apply List.getD_eq_default
    simp; omega

theorem bufHead_length (s : State) {n : Nat} (h : n ≤ 200) : (s.bufHead n).length = n := by
  simp [State.bufHead]; omega

theorem roundIndex?_val (k : Fin 24) : roundIndex? k.val = some k := by simp [roundIndex?]

theorem roundIndex?_of_lt {n : Nat} (h : n < 24) : roundIndex? n = some ⟨n, h⟩ := by simp [roundIndex?, h]

theorem roundIndex?_of_ge {n : Nat} (h : 24 ≤ n) : roundIndex? n = none := by simp [roundIndex?]; omega

/-- The signed reading of OUTLEN is negative exactly from 2^63 on. -/
theorem sint64_neg_iff (v : BitVec 64) : sint64 v < 0 ↔ 2 ^ 63 ≤ v.toNat := by
  have h := v.isLt
  have e : v.getLsbD 63 = decide (2 ^ 63 ≤ v.toNat) := by
    rw [← BitVec.msb_eq_getLsbD_last v, BitVec.msb_eq_decide]
  unfold sint64; rw [e]; split <;> simp_all; omega

theorem sint64_of_lt {v : BitVec 64} (h : v.toNat < 2 ^ 63) : sint64 v = v.toNat := by
  have e : v.getLsbD 63 = false := by
    rw [← BitVec.msb_eq_getLsbD_last v, BitVec.msb_eq_decide]; simpa using h
  unfold sint64; rw [e]; rfl

theorem toNat_lt_of_sint64_nonneg {v : BitVec 64} (h : 0 ≤ sint64 v) : v.toNat < 2 ^ 63 := by
  have := sint64_neg_iff v; omega

theorem ofInt_sint64 {v : BitVec 64} (h : 0 ≤ sint64 v) : BitVec.ofInt 64 (sint64 v) = v := by
  rw [sint64_of_lt (toNat_lt_of_sint64_nonneg h)]; simp

theorem sint64_pos_iff {v : BitVec 64} (h : 0 ≤ sint64 v) : 0 < sint64 v ↔ v ≠ 0 := by
  rw [sint64_of_lt (toNat_lt_of_sint64_nonneg h)]
  simp [BitVec.toNat_eq, Nat.pos_iff_ne_zero]

/-- The host's view of PH in a STATUS word. -/
theorem phField_statusWord (s : State) : phField s.statusWord = s.phase.code := by
  unfold phField State.statusWord
  rcases s.err with _ | e
  · cases s.busy <;> cases s.phase <;> rfl
  · cases e <;> cases s.busy <;> cases s.phase <;> rfl

theorem phField_squeeze_iff (s : State) :
    phField s.statusWord = Phase.code .squeeze ↔ s.phase = .squeeze := by
  rw [phField_statusWord]; cases s.phase <;> simp [Phase.code]

end Sys2Proof.Machine
end

