-- ==== Sys2Proof/Laws/Codec.lean ====
section
/-! SUPPORT. The codec lane by lane and byte by byte. -/

namespace Sys2Proof.Machine

theorem bytesToState_get (b : List Byte) (i : Nat) (h : i < 25) : (bytesToState b)[i] = packLane b i := by
  simp [bytesToState]

theorem stateToBytes_get (A : Lanes) (j : Nat) (h : j < 200) :
    (stateToBytes A)[j] = laneByte (A[j / 8]'(by omega)) (j % 8) := by
  simp [stateToBytes]

theorem absorbXor_get (A : Lanes) (blk : Block) (i : Nat) (h : i < 25) :
    (absorbXor A blk)[i] = if i < 21 then A[i] ^^^ packLane blk.toList i else A[i] := by
  simp [absorbXor, bytesToState]

/-- Bit `q` of the first `n` bytes of a lane being packed. -/
theorem packLane_fold_bit (b : List Byte) (i q n : Nat) (hn : n ≤ 8) :
    ((List.range n).foldl
        (fun v k => v ||| ((byteOrZero b (8 * i + k)).setWidth 64 <<< (8 * k))) (0 : Lane)).getLsbD q =
      (decide (q < 8 * n) && (byteOrZero b (8 * i + q / 8)).getLsbD (q % 8)) := by
  induction n with
  | zero => simp
  | succ n ih =>
    rw [List.range_succ, List.foldl_append, List.foldl_cons, List.foldl_nil, BitVec.getLsbD_or, ih (by omega),
      BitVec.getLsbD_shiftLeft, BitVec.getLsbD_setWidth]
    by_cases h1 : q < 8 * n
    · have h2 : q < 8 * (n + 1) := by omega
      simp [h1, h2]
    · by_cases h2 : q < 8 * (n + 1)
      · have h3 : q / 8 = n := by omega
        have h4 : q % 8 = q - 8 * n := by omega
        have h5 : q < 64 := by omega
        have h6 : q - 8 * n < 64 := by omega
        simp only [h1, h2, h3, h4, h5, h6, decide_true, decide_false, Bool.false_and, Bool.true_and,
          Bool.false_or, Bool.not_false]
      · have h3 : 8 ≤ q - 8 * n := by omega
        simp only [h1, h2, BitVec.getLsbD_of_ge _ _ h3, decide_false, Bool.false_and, Bool.and_false,
          Bool.or_false]

/-- Bit `q` of a packed lane is bit `q mod 8` of its byte `q div 8`. -/
theorem packLane_bit (b : List Byte) (i q : Nat) :
    (packLane b i).getLsbD q = (decide (q < 64) && (byteOrZero b (8 * i + q / 8)).getLsbD (q % 8)) :=
  packLane_fold_bit b i q 8 (Nat.le_refl 8)

/-- Byte `k` of a packed lane is byte `8i + k` of the sequence. -/
theorem laneByte_packLane (b : List Byte) (i k : Nat) (hk : k < 8) :
    laneByte (packLane b i) k = byteOrZero b (8 * i + k) := by
  apply BitVec.eq_of_getLsbD_eq
  intro p hp
  have h1 : 8 * k + p < 64 := by omega
  have h2 : (8 * k + p) / 8 = k := by omega
  have h3 : (8 * k + p) % 8 = p := by omega
  rw [laneByte, BitVec.getLsbD_extractLsb', packLane_bit, h2, h3]
  simp only [hp, h1, decide_true, Bool.true_and]

/-- A lane is determined by its eight bytes. -/
theorem lane_ext {v w : Lane} (h : ∀ k, k < 8 → laneByte v k = laneByte w k) : v = w := by
  apply BitVec.eq_of_getLsbD_eq
  intro q hq
  have e := congrArg (fun x => x.getLsbD (q % 8)) (h (q / 8) (by omega))
  have h1 : q % 8 < 8 := Nat.mod_lt _ (by omega)
  have h2 : 8 * (q / 8) + q % 8 = q := by omega
  simpa only [laneByte, BitVec.getLsbD_extractLsb', h1, h2, decide_true, Bool.true_and] using e

theorem laneByte_xor (v w : Lane) (k : Nat) : laneByte (v ^^^ w) k = laneByte v k ^^^ laneByte w k := by
  apply BitVec.eq_of_getLsbD_eq
  intro p hp
  simp only [laneByte, BitVec.getLsbD_extractLsb', BitVec.getLsbD_xor, hp, decide_true, Bool.true_and]

/-- Packing no byte gives the zero lane. -/
theorem packLane_eq_zero (b : List Byte) (i : Nat) (h : b.length ≤ 8 * i) : packLane b i = 0 := by
  apply lane_ext
  intro k hk
  rw [laneByte_packLane b i k hk, byteOrZero, List.getD_eq_default _ _ (by omega)]
  simp [laneByte]

theorem byteOrZero_of_lt (b : List Byte) (j : Nat) (h : j < b.length) : byteOrZero b j = b[j] := by
  simp [byteOrZero, h]

theorem byteOrZero_of_ge (b : List Byte) (j : Nat) (h : b.length ≤ j) : byteOrZero b j = 0 := by
  simp [byteOrZero, h]

end Sys2Proof.Machine
end

