-- ==== Sys2Proof/Laws/Padding.lean ====
section
/-! SUPPORT. The padded block byte by byte. -/

namespace Sys2Proof.Machine

theorem pad_get (rem : List Byte) (j : Nat) (h : j < 168) :
    (pad rem)[j] =
      rem.getD j 0 ^^^ (if j = rem.length then 0x1F else 0) ^^^ (if j = 167 then 0x80 else 0) := by
  simp only [pad, tabulate_get]

/-- The block PAD and FINAL build from the tail `BUF[0..r-1]`. -/
theorem pad_bufHead_get (s : State) (r j : Nat) (hr : r < 168) (h : j < 168) :
    (pad (s.bufHead r))[j] =
      (if j < r then s.buf[j] else 0) ^^^ (if j = r then 0x1F else 0) ^^^ (if j = 167 then 0x80 else 0) := by
  rw [pad_get _ j h, bufHead_getD, bufHead_length s (by omega)]
  by_cases hj : j < r
  · have h2 : j < 200 := by omega
    simp [hj, h2]
  · simp [hj]

/-- The tail alone decides the padded block. -/
theorem pad_bufHead_congr {s s' : State} {r : Nat} (hr : r < 168)
    (h : ∀ j : Fin 200, j.val < r → s'.buf[j] = s.buf[j]) : pad (s'.bufHead r) = pad (s.bufHead r) := by
  apply vector_ext
  intro j
  have e : ∀ (hj : j.val < r), s'.buf[j.val] = s.buf[j.val] := fun hj => h ⟨j.val, by omega⟩ hj
  simp only [Fin.getElem_fin]
  rw [pad_bufHead_get s' r j hr j.isLt, pad_bufHead_get s r j hr j.isLt]
  split <;> simp_all

end Sys2Proof.Machine
end

