-- ==== Sys2Proof/Laws/RoundOps.lean ====
section
/-! SUPPORT. The round operations lane by lane, and the rotation bit by bit. -/

namespace Sys2Proof.Machine

theorem columnParity_get (A : Lanes) (x : Nat) (h : x < 5) :
    (columnParity A)[x] = A[x] ^^^ A[x + 5] ^^^ A[x + 10] ^^^ A[x + 15] ^^^ A[x + 20] := by
  simp [columnParity]

theorem thetaEffect_get (C : Vector Lane 5) (x : Nat) (h : x < 5) :
    (thetaEffect C)[x] = C[(x + 4) % 5]'(by omega) ^^^ rotl64 (C[(x + 1) % 5]'(by omega)) 1 := by
  simp [thetaEffect]

theorem theta_get (A : Lanes) (i : Nat) (h : i < 25) :
    (theta A)[i] = A[i] ^^^ (thetaEffect (columnParity A))[i % 5]'(by omega) := by
  simp [theta]

theorem rho_get (A : Lanes) (i : Nat) (h : i < 25) : (rho A)[i] = rotl64 A[i] RHO[i].val := by
  simp [rho]

theorem pi_get (A : Lanes) (i : Nat) (h : i < 25) : (pi A)[i] = A[PI[i].val] := by
  simp [pi]

theorem chi_get (A : Lanes) (i : Nat) (h : i < 25) :
    (chi A)[i] = A[i] ^^^ (~~~(A[5 * (i / 5) + (i % 5 + 1) % 5]'(by omega)) &&&
      A[5 * (i / 5) + (i % 5 + 2) % 5]'(by omega)) := by
  simp [chi]

/-- The left and the right column of the printed table (R101). -/
theorem RC_left (k : Fin 12) : RC[k.val] = rcRows[k].1 := by
  simp only [RC, Vector.getElem_append_left k.isLt, Vector.getElem_map]; rfl
theorem RC_right (k : Fin 12) : RC[k.val + 12] = rcRows[k].2 := by
  simp only [RC, Vector.getElem_append_right _ (Nat.le_add_left 12 k.val), Vector.getElem_map]; simp

theorem iota_get_zero (A : Lanes) (ir : Fin 24) : (iota A ir)[0] = A[0] ^^^ RC[ir] := by
  simp [iota]

theorem iota_get_other (A : Lanes) (ir : Fin 24) (i : Nat) (h : i < 25) (h0 : i ≠ 0) :
    (iota A ir)[i] = A[i] := by
  simp [iota, Vector.getElem_set_ne, h0.symm]

/-- The rotation of R6 is the rotation of a 64-bit vector. -/
theorem rotl64_eq_rotateLeft (v : Lane) (n : Nat) (h : n < 64) : rotl64 v n = v.rotateLeft n := by
  unfold rotl64
  split
  · next h0 => subst h0; apply BitVec.eq_of_getLsbD_eq; intro i hi; simp [hi]
  · simp [BitVec.rotateLeft, BitVec.rotateLeftAux, Nat.mod_eq_of_lt h]

theorem rotl64_xor (v w : Lane) (n : Nat) : rotl64 (v ^^^ w) n = rotl64 v n ^^^ rotl64 w n := by
  unfold rotl64
  split
  · rfl
  · apply BitVec.eq_of_getLsbD_eq; intro i hi
    simp only [BitVec.getLsbD_or, BitVec.getLsbD_xor, BitVec.getLsbD_shiftLeft, BitVec.getLsbD_ushiftRight]
    by_cases hn : i < n
    · simp [hn]
    · have : 64 ≤ 64 - n + i := by omega
      simp [hn, BitVec.getLsbD_of_ge _ _ this, hi]

theorem rotl64_zero (n : Nat) : rotl64 0 n = 0 := by
  unfold rotl64; split <;> simp

end Sys2Proof.Machine
end

