-- ==== Sys2Proof/Laws/Permutation.lean ====
section
/-! SUPPORT. The permutation driver with its round counter computes the function of R130. -/

namespace Sys2Proof.Machine

/-- The rounds `n`, `n+1`, ..., 23 of R130. -/
def roundsFrom (n : Nat) (A : Lanes) : Lanes :=
  ((List.finRange 24).drop n).foldl round A

theorem roundsFrom_step (n : Nat) (h : n < 24) (A : Lanes) :
    roundsFrom n A = roundsFrom (n + 1) (round A ⟨n, h⟩) := by
  unfold roundsFrom
  rw [List.drop_eq_getElem_cons (by simpa using h)]
  simp

theorem roundTick_eq (s : State) (n : Nat) (h : n < 24) (hc : s.roundCounter = some (BitVec.ofNat 5 n)) :
    s.roundTick = { s with lanes := round s.lanes ⟨n, h⟩, roundCounter := some (BitVec.ofNat 5 (n + 1)) } := by
  have e : (BitVec.ofNat 5 n).toNat = n := by simp; omega
  unfold State.roundTick
  rw [hc]
  simp only [e, roundIndex?_of_lt h]
  congr 2
  simp [BitVec.ofNat_add]

/-- The driver from round `n` on. -/
theorem roundTicks_eq (k n : Nat) (h : n + k = 24) (s : State)
    (hc : s.roundCounter = some (BitVec.ofNat 5 n)) :
    State.roundTicks k s =
      { s with lanes := roundsFrom n s.lanes, roundCounter := some (BitVec.ofNat 5 24) } := by
  induction k generalizing n s with
  | zero =>
    have : n = 24 := by omega
    subst this
    have hd : (List.finRange 24).drop 24 = [] := List.drop_eq_nil_of_le (by simp)
    have he : roundsFrom 24 s.lanes = s.lanes := by unfold roundsFrom; rw [hd]; rfl
    rw [State.roundTicks, he, ← hc]
  | succ k ih =>
    rw [State.roundTicks, roundTick_eq s n (by omega) hc, ih (n + 1) (by omega) _ rfl,
      roundsFrom_step n (by omega) s.lanes]

/-- Everything the driver does: S becomes `permute(S)`, and no round counter is left. -/
theorem runPermutation_eq (s : State) :
    s.runPermutation = { s with lanes := permute s.lanes, roundCounter := none } := by
  unfold State.runPermutation
  rw [roundTicks_eq 24 0 rfl _ rfl]
  simp [roundsFrom, permute]

end Sys2Proof.Machine
end

