-- ==== Sys2Proof/Laws/Sponge.lean ====
section
/-! SUPPORT. What each command does, as one equation per command and outcome. A later proof cites these
and does not unfold the meanings. -/

namespace Sys2Proof.Machine

/-- Outside the fault state a command goes to the state its rule gives: that state, command by command
(R60, R85 to R87, R111 to R115, R120, R131, R143, R155, R157, R160, R165). -/
def commandEffect (i : Instr) (s : State) : State :=
  match i with
  | .init => { s with lanes := zeroLanes, outrem := 0, lastk := 0, phase := .absorb }
  | .b2s L =>
    if L ≤ 200 then { s with lanes := bytesToState (s.bufHead L) } else s.raiseFault .operandRange (encode i)
  | .s2b => { s with buf := stateToBytes s.lanes }
  | .xorrate => { s with lanes := absorbXor s.lanes s.rateBlock }
  | .pad r =>
    if r < 168 then s.setRateBlock (pad (s.bufHead r)) else s.raiseFault .padPrecondition (encode i)
  | .theta => { s with lanes := theta s.lanes }
  | .rho => { s with lanes := rho s.lanes }
  | .pi => { s with lanes := pi s.lanes }
  | .chi => { s with lanes := chi s.lanes }
  | .iota ir =>
    if h : ir < 24 then { s with lanes := iota s.lanes ⟨ir, h⟩ } else s.raiseFault .operandRange (encode i)
  | .round ir =>
    if h : ir < 24 then { s with lanes := round s.lanes ⟨ir, h⟩ } else s.raiseFault .operandRange (encode i)
  | .permute => { s with lanes := permute s.lanes, roundCounter := none }
  | .absorb =>
    if s.phase = .absorb then
      { s with lanes := permute (absorbXor s.lanes s.rateBlock), roundCounter := none }
    else s.raiseFault .phaseError (encode i)
  | .final r =>
    if s.phase ≠ .absorb then s.raiseFault .phaseError (encode i)
    else if sint64 s.outlen < 0 then s.raiseFault .invalidArgument (encode i)
    else if r < 168 then
      { s with
        buf := overlayBlock s.buf (pad (s.bufHead r))
        lanes := permute (absorbXor s.lanes (pad (s.bufHead r)))
        roundCounter := none
        outrem := s.outlen
        lastk := 0
        phase := if 0 < sint64 s.outlen then .squeeze else .idle }
    else s.raiseFault .padPrecondition (encode i)
  | .squeeze =>
    if s.phase ≠ .squeeze then s.raiseFault .phaseError (encode i)
    else if 168 < s.outrem.toNat then
      { s with
        buf := stateToBytes s.lanes, lastk := 168, outrem := s.outrem - 168
        lanes := permute s.lanes, roundCounter := none }
    else
      { s with buf := stateToBytes s.lanes, lastk := s.outrem, outrem := 0, phase := .idle }

/-- Everything a command can answer: it is ignored in the fault state, and otherwise has its effect. -/
theorem exec_eq (i : Instr) (s : State) :
    exec i s = .next (if s.phase = .fault then s else commandEffect i s) := by
  cases i with
  | init => simp only [exec, execInit, unlessFault_eq, commandEffect]
  | b2s L =>
    simp only [exec, execB2s, unlessFault_eq, commandEffect, byteCountLegal, decide_eq_true_eq, State.setLanes]
  | s2b => simp only [exec, execS2b, unlessFault_eq, commandEffect, State.setBuf]
  | xorrate => simp only [exec, execXorrate, unlessFault_eq, commandEffect, State.setLanes]
  | pad r => simp only [exec, execPad, unlessFault_eq, commandEffect, tailLegal, decide_eq_true_eq]
  | theta => simp only [exec, execTheta, unlessFault_eq, commandEffect, State.setLanes]
  | rho => simp only [exec, execRho, unlessFault_eq, commandEffect, State.setLanes]
  | pi => simp only [exec, execPi, unlessFault_eq, commandEffect, State.setLanes]
  | chi => simp only [exec, execChi, unlessFault_eq, commandEffect, State.setLanes]
  | iota ir =>
    simp only [exec, execIota, unlessFault_eq, commandEffect, State.setLanes]
    by_cases h : ir < 24
    · simp only [roundIndex?_of_lt h, h, dite_true]
    · simp only [roundIndex?_of_ge (Nat.le_of_not_lt h), h, dite_false]
  | round ir =>
    simp only [exec, execRound, unlessFault_eq, commandEffect, State.setLanes]
    by_cases h : ir < 24
    · simp only [roundIndex?_of_lt h, h, dite_true]
    · simp only [roundIndex?_of_ge (Nat.le_of_not_lt h), h, dite_false]
  | permute => simp only [exec, execPermute, unlessFault_eq, commandEffect, runPermutation_eq]
  | absorb =>
    simp only [exec, execAbsorb, unlessFault_eq, commandEffect, runPermutation_eq, State.setLanes, ne_eq,
      ite_not]
  | final r =>
    simp only [exec, execFinal, unlessFault_eq, commandEffect, runPermutation_eq, State.setLanes,
      rateBlock_setRateBlock, setRateBlock_lanes, tailLegal, decide_eq_false_iff_not]
    by_cases hn : sint64 s.outlen < 0
    · simp only [hn, if_true]
    · by_cases hr : r < 168
      · simp only [hn, hr, if_false, if_true, not_true_eq_false, ofInt_sint64 (Int.not_lt.mp hn), gt_iff_lt]
        rfl
      · simp only [hn, hr, if_false, if_true, not_false_eq_true]
  | squeeze =>
    simp only [exec, execSqueeze, unlessFault_eq, commandEffect, runPermutation_eq]
    have hlt := s.outrem.isLt
    by_cases hk : 168 < s.outrem.toNat
    · have e : min 168 s.outrem.toNat = 168 := by omega
      have hne : s.outrem - BitVec.ofNat 64 168 ≠ 0 := by
        intro h; have := congrArg BitVec.toNat h; simp [BitVec.toNat_sub] at this; omega
      simp only [e, hk, if_true, ne_eq, hne, not_false_eq_true]
      rfl
    · have e : min 168 s.outrem.toNat = s.outrem.toNat := by omega
      have z : ¬(0#64 ≠ (0 : BitVec 64)) := by simp
      simp only [e, hk, z, if_false, BitVec.ofNat_toNat, BitVec.setWidth_eq, BitVec.sub_self]
      rfl

/-- No command touches the host's side of the state. -/
@[simp] theorem commandEffect_pending (i : Instr) (s : State) : (commandEffect i s).pending = s.pending := by
  cases i <;> simp only [commandEffect] <;> (repeat' split) <;> simp

@[simp] theorem commandEffect_responses (i : Instr) (s : State) :
    (commandEffect i s).responses = s.responses := by
  cases i <;> simp only [commandEffect] <;> (repeat' split) <;> simp

/-- A command that answers `t`, answers it in one of two ways. -/
theorem exec_cases {i : Instr} {s t : State} (h : exec i s = .next t) :
    (s.phase = .fault ∧ t = s) ∨ (s.phase ≠ .fault ∧ t = commandEffect i s) := by
  rw [exec_eq] at h
  injection h with h
  by_cases hp : s.phase = .fault
  · simp [hp] at h; exact .inl ⟨hp, h.symm⟩
  · simp [hp] at h; exact .inr ⟨hp, h.symm⟩

theorem exec_of_ne {s : State} (h : s.phase ≠ .fault) (i : Instr) :
    exec i s = .next (commandEffect i s) := by simp [exec_eq, h]

end Sys2Proof.Machine
end

