-- ==== Sys2Proof/Laws/Bus.lean ====
section
/-! SUPPORT. The register map entry by entry, and everything a host action can do. -/

namespace Sys2Proof.Machine

/-- A distance inside the map is its own offset. -/
theorem mapOffset_toNat {a : Nat} (h : a < 0x1000) : (mapOffset a).toNat = a := by
  simp only [mapOffset, h, if_true, BitVec.toNat_ofNat]
  omega

/-- A distance past the map is no register, whatever the width (R42, log 15). -/
theorem mapEntry_past_map {a : Nat} (h : 0x1000 ≤ a) (width : Nat) : mapEntry (mapOffset a) width = none := by
  rw [mapOffset, if_neg (by omega)]
  simp [mapEntry, cmdOffset, statusOffset, outlenOffset, outremOffset, lastkOffset, errcmdOffset]

theorem bufOffset_toNat {j : Nat} (h : j < 0x1000) : (bufOffset j).toNat = j := mapOffset_toNat h

theorem mapEntry_buf (j : Fin 200) : mapEntry (bufOffset j.val) 1 = some (.buf j) := by
  have h : (bufOffset j.val).toNat = j.val := bufOffset_toNat (by omega)
  simp [mapEntry, h]

theorem mapEntry_lane (i : Fin 25) : mapEntry (laneOffset i.val) 8 = some (.lane i) := by
  have h : (laneOffset i.val).toNat = 256 + 8 * i.val := mapOffset_toNat (by omega)
  have h1 : ¬256 + 8 * i.val < 200 := by omega
  have h2 : 256 ≤ 256 + 8 * i.val ∧ 256 + 8 * i.val ≤ 448 := by omega
  have h3 : (256 + 8 * i.val) % 8 = 0 := by omega
  simp [mapEntry, h, h1, h2, h3]

theorem mapEntry_cmd : mapEntry cmdOffset 4 = some .cmd := by decide
theorem mapEntry_status : mapEntry statusOffset 8 = some .status := by decide
theorem mapEntry_outlen : mapEntry outlenOffset 8 = some .outlen := by decide
theorem mapEntry_outrem : mapEntry outremOffset 8 = some .outrem := by decide
theorem mapEntry_lastk : mapEntry lastkOffset 8 = some .lastk := by decide
theorem mapEntry_errcmd : mapEntry errcmdOffset 8 = some .errcmd := by decide

/-- Everything the issue of a word can answer (R60, R186). -/
theorem issue_eq (w : CommandWord) (s : State) :
    issue w s =
      .next (if s.phase = .fault then s
        else match decode w with
          | .error _ => s.raiseFault .illegalCommand w
          | .ok i => commandEffect i s) := by
  unfold issue
  cases h : decode w with
  | error e => simp only [unlessFault_eq]
  | ok i => simp only [exec_eq]

/-- Everything an admitted write can do while BUSY = 0. -/
theorem busWrite_of_entry {off : Offset} {width : Nat} {e : MapEntry} {s : State} (v : BitVec 64)
    (h : mapEntry off width = some e) (hb : s.busy = false) : busWrite off width v s = writeEntry s e v := by
  simp [busWrite, h, hb]

/-- Everything an admitted read can do while BUSY = 0. -/
theorem busRead_of_entry {off : Offset} {width : Nat} {e : MapEntry} {s : State}
    (h : mapEntry off width = some e) (hb : s.busy = false) :
    busRead off width s = .next (s.respond off (readEntry s e)) := by
  simp [busRead, h, hb]

/-- Everything a read can do: it is stuck, or it only tells the host a value (R42, R51, R206). -/
theorem busRead_cases {off : Offset} {width : Nat} {s t : State} (h : busRead off width s = .next t) :
    ∃ e, mapEntry off width = some e ∧ t = s.respond off (readEntry s e) := by
  unfold busRead at h
  split at h
  · cases h
  · next e he =>
    split at h
    · cases h
    · injection h with h; exact ⟨e, he, h.symm⟩

/-- Everything a write can do: it is stuck, or BUSY = 0 and it reaches its register (R42, R206). -/
theorem busWrite_cases {off : Offset} {width : Nat} {v : BitVec 64} {s t : State}
    (h : busWrite off width v s = .next t) :
    ∃ e, mapEntry off width = some e ∧ s.busy = false ∧ writeEntry s e v = .next t := by
  unfold busWrite at h
  split at h
  · cases h
  · next e he =>
    split at h
    · cases h
    · next hb => exact ⟨e, he, by simpa using hb, h⟩

/-- Everything a write to a register can leave: BUF, a lane or OUTLEN written, a command issued, or no
change (R43 to R47). -/
theorem writeEntry_cases {s t : State} {e : MapEntry} {v : BitVec 64} (h : writeEntry s e v = .next t) :
    (∃ j, e = .buf j ∧ t = s.setBufByte j (v.setWidth 8)) ∨ (∃ i, e = .lane i ∧ t = s.setLane i v) ∨
    (e = .cmd ∧ issue (v.setWidth 32) s = .next t) ∨ (e = .outlen ∧ t = { s with outlen := v }) ∨ t = s := by
  cases e <;> simp [writeEntry] at h <;> simp_all

/-- A step whose action is an admitted write, while BUSY = 0. -/
theorem step_write {s : State} {off : Offset} {width : Nat} {v : BitVec 64} {rest : List HostOp} {e : MapEntry}
    (hp : s.pending = .write off width v :: rest) (he : mapEntry off width = some e) (hb : s.busy = false) :
    step s = writeEntry (s.setPending rest) e v := by
  simp only [step, hp, hostAction]
  exact busWrite_of_entry v he hb

/-- A step whose action is an admitted read, while BUSY = 0. -/
theorem step_read {s : State} {off : Offset} {width : Nat} {rest : List HostOp} {e : MapEntry}
    (hp : s.pending = .read off width :: rest) (he : mapEntry off width = some e) (hb : s.busy = false) :
    step s = .next ((s.setPending rest).respond off (readEntry s e)) := by
  simp only [step, hp, hostAction]
  have h : readEntry (s.setPending rest) e = readEntry s e := by cases e <;> rfl
  rw [← h]
  exact busRead_of_entry he hb

/-- A step whose action is a write of a command word to CMD, while BUSY = 0 (R45). -/
theorem step_issue {s : State} {v : BitVec 64} {rest : List HostOp}
    (hp : s.pending = .write cmdOffset 4 v :: rest) (hb : s.busy = false) :
    step s = issue (v.setWidth 32) (s.setPending rest) :=
  step_write hp mapEntry_cmd hb

/-- Everything a step can do (R45, R52, R200, R201, R170): wait, write, read, reset, or decide the host's
next actions from a read. -/
theorem step_cases {s t : State} (h : step s = .next t) :
    (s.pending = [] ∧ t = s) ∨
    (∃ op rest, s.pending = op :: rest ∧
      ((∃ off width v, op = .write off width v ∧ busWrite off width v (s.setPending rest) = .next t) ∨
       (∃ off width, op = .read off width ∧ busRead off width (s.setPending rest) = .next t) ∨
       (op = .reset ∧ t = (s.setPending rest).applyReset) ∨
       (op = .squeezeLoop ∧
         t = ((s.setPending rest).respond statusOffset s.statusWord).setPending
           ((if s.phase = .squeeze then [command .squeeze, .readOutput, .squeezeLoop] else []) ++ rest)) ∨
       (op = .readOutput ∧ s.busy = false ∧
         t = ((s.setPending rest).respond lastkOffset s.lastk).setPending (rbs 0 s.lastk.toNat ++ rest)))) := by
  unfold step at h
  split at h
  · next hp => injection h with h; exact .inl ⟨hp, h.symm⟩
  · next op rest hp =>
    refine .inr ⟨op, rest, hp, ?_⟩
    cases op with
    | write off width v => exact .inl ⟨off, width, v, rfl, h⟩
    | read off width => exact .inr (.inl ⟨off, width, rfl, h⟩)
    | reset => injection h with h; exact .inr (.inr (.inl ⟨rfl, h.symm⟩))
    | squeezeLoop =>
      refine .inr (.inr (.inr (.inl ⟨rfl, ?_⟩)))
      have hr : busRead statusOffset 8 (s.setPending rest) =
          .next ((s.setPending rest).respond statusOffset s.statusWord) := by
        simp [busRead, mapEntry_status, readEntry, State.statusWord]
      have hs : (s.setPending rest).statusWord = s.statusWord := rfl
      simp only [hostAction, hr, thenIssue, hs, squeezeTurn, phField_squeeze_iff, respond_pending,
        setPending_pending] at h
      injection h with h
      exact h.symm
    | readOutput =>
      refine .inr (.inr (.inr (.inr ⟨rfl, ?_⟩)))
      simp only [hostAction] at h
      by_cases hb : s.busy = true
      · simp [busRead, mapEntry_lastk, hb, thenIssue] at h
      · have hb' : s.busy = false := by simpa using hb
        rw [busRead_of_entry mapEntry_lastk (by simpa using hb')] at h
        simp only [thenIssue, readEntry, respond_pending, setPending_pending, setPending_lastk] at h
        injection h with h
        exact ⟨hb', h.symm⟩

end Sys2Proof.Machine
end

