-- ==== Sys2Proof/Laws/HostProgram.lean ====
section
/-! SUPPORT. Runs of the host's straight-line pieces: staging bytes, reading output, issuing commands. -/

namespace Sys2Proof.Machine

/-- Some number of steps leads from `s` to `t`. -/
def Reaches (s t : State) : Prop := ∃ k, runSteps k s = .next t

theorem core_run_next {M : Host.Core} {k : Nat} {s t : M.State} (h : M.step s = .next t) :
    M.run (k + 1) s = M.run k t := by rw [Host.Core.run, h]

theorem core_run_fault {M : Host.Core} {k : Nat} {s : M.State} {f : M.Fault} (h : M.step s = .fault f) :
    M.run (k + 1) s = .fault f := by rw [Host.Core.run, h]

theorem core_run_refused {M : Host.Core} {k : Nat} {s : M.State} {f : M.Refusal} (h : M.step s = .refused f) :
    M.run (k + 1) s = .refused f := by rw [Host.Core.run, h]

/-- The steps of the model are the steps of the host's interface. -/
theorem run_core_eq (k : Nat) (s : State) : Host.Core.run Sys2Proof.core k s = runSteps k s := by
  induction k generalizing s with
  | zero => rfl
  | succ k ih =>
    rw [runSteps]
    cases h : step s with
    | next t => exact (core_run_next (M := Sys2Proof.core) h).trans (ih t)
    | fault f => exact core_run_fault (M := Sys2Proof.core) h
    | refused f => exact core_run_refused (M := Sys2Proof.core) h

theorem Reaches.refl (s : State) : Reaches s s := ⟨0, rfl⟩

/-- One step first, then the rest. -/
theorem Reaches.head {s t u : State} (h : step s = .next t) (h' : Reaches t u) : Reaches s u := by
  obtain ⟨k, hk⟩ := h'
  refine ⟨k + 1, ?_⟩
  rw [runSteps, h]
  exact hk

theorem Reaches.trans {s t u : State} (h : Reaches s t) (h' : Reaches t u) : Reaches s u := by
  obtain ⟨k, hk⟩ := h
  induction k generalizing s with
  | zero => rw [runSteps] at hk; injection hk with hk; subst hk; exact h'
  | succ k ih =>
    rw [runSteps] at hk
    split at hk
    · next v hv => exact .head hv (ih hk)
    · cases hk
    · cases hk

/-- The buffer after `wbs j, bytes`. -/
def stage (b : Buffer) : Nat → List Byte → Buffer
  | _, [] => b
  | j, v :: bytes => stage (if h : j < 200 then b.set j v else b) (j + 1) bytes

theorem stage_get (b : Buffer) (j : Nat) (bytes : List Byte) (i : Nat) (h : i < 200) :
    (stage b j bytes)[i] = if j ≤ i ∧ i < j + bytes.length then bytes.getD (i - j) 0 else b[i] := by
  induction bytes generalizing b j with
  | nil => simp [stage]
  | cons v bytes ih =>
    rw [stage, ih]
    by_cases h1 : j = i
    · subst h1
      simp [h]
    · by_cases h2 : j + 1 ≤ i ∧ i < j + 1 + bytes.length
      · have h3 : j ≤ i ∧ i < j + (v :: bytes).length := by simp; omega
        have h4 : i - j = (i - (j + 1)) + 1 := by omega
        rw [if_pos h2, if_pos h3, h4, List.getD_cons_succ]
      · have h3 : ¬(j ≤ i ∧ i < j + (v :: bytes).length) := by simp; omega
        rw [if_neg h2, if_neg h3]
        split
        · exact Vector.getElem_set_ne _ _ h1
        · rfl

theorem wbs_cons (j : Nat) (v : Byte) (bytes : List Byte) : wbs j (v :: bytes) = wb j v :: wbs (j + 1) bytes := by
  simp only [wbs, List.mapIdx_cons, Nat.add_zero, List.cons.injEq, true_and]
  congr 1; funext d v; congr 1; omega

/-- `wbs j, bytes` stages its bytes and does nothing else (R43, R66). -/
theorem reaches_wbs (bytes : List Byte) (j : Nat) (rest : List HostOp) (s : State)
    (hj : j + bytes.length ≤ 200) (hb : s.busy = false) (hp : s.pending = wbs j bytes ++ rest) :
    Reaches s { s with pending := rest, buf := stage s.buf j bytes } := by
  induction bytes generalizing j s with
  | nil =>
    have e : s = { s with pending := rest, buf := stage s.buf j [] } := by
      cases s; simp_all [wbs, stage]
    rw [← e]; exact .refl s
  | cons v bytes ih =>
    simp only [List.length_cons] at hj
    rw [wbs_cons] at hp
    have hlt : j < 200 := by omega
    have h := step_write hp (mapEntry_buf ⟨j, hlt⟩) hb
    refine .head h ?_
    have e : ((v.setWidth 64).setWidth 8 : Byte) = v := by simp
    simp only [State.setBufByte, e, setPending_buf]
    have := ih (j + 1) { s.setPending (wbs (j + 1) bytes ++ rest) with buf := s.buf.set j v } (by omega) hb rfl
    simp only [stage, hlt, dite_true]
    exact this

theorem rbs_succ (j k : Nat) : rbs j (k + 1) = rb j :: rbs (j + 1) k := by
  simp only [rbs, List.range_succ_eq_map, List.map_cons, List.map_map, Nat.add_zero, List.cons.injEq, true_and]
  congr 1; funext d; simp only [Function.comp]; congr 1; omega

theorem outputBytes_append (r r' : List Response) :
    outputBytes (r ++ r') = outputBytes r ++ outputBytes r' := by
  simp [outputBytes]

/-- `rbs j, k` reads `BUF[j..j+k-1]` and does nothing else (R43, R66). -/
theorem reaches_rbs (k j : Nat) (rest : List HostOp) (s : State) (hj : j + k ≤ 200) (hb : s.busy = false)
    (hp : s.pending = rbs j k ++ rest) :
    ∃ r : List Response, Reaches s { s with pending := rest, responses := s.responses ++ r } ∧
      outputBytes r = (s.buf.toList.drop j).take k := by
  induction k generalizing j s with
  | zero =>
    have e : s = { s with pending := rest, responses := s.responses ++ [] } := by
      cases s; simp_all [rbs]
    refine ⟨[], ?_, by simp [outputBytes]⟩
    rw [← e]; exact .refl s
  | succ k ih =>
    rw [rbs_succ] at hp
    have hlt : j < 200 := by omega
    have h := step_read hp (mapEntry_buf ⟨j, hlt⟩) hb
    obtain ⟨r, hr, ho⟩ := ih (j + 1)
      (((s.setPending (rbs (j + 1) k ++ rest)).respond (bufOffset j) (readEntry s (.buf ⟨j, hlt⟩)))) (by omega)
      hb rfl
    refine ⟨⟨bufOffset j, readEntry s (.buf ⟨j, hlt⟩)⟩ :: r, ?_, ?_⟩
    · refine .head h ?_
      have e : ((s.setPending (rbs (j + 1) k ++ rest)).respond (bufOffset j) (readEntry s (.buf ⟨j, hlt⟩))).responses
          ++ r = s.responses ++ (⟨bufOffset j, readEntry s (.buf ⟨j, hlt⟩)⟩ :: r) := by simp
      rw [e] at hr
      exact hr
    · have e1 : (bufOffset j).toNat < 200 := by rw [bufOffset_toNat (by omega)]; exact hlt
      have e2 : ((s.bufByte ⟨j, hlt⟩).setWidth 64).setWidth 8 = s.buf[j] := by
        simp [State.bufByte]
      rw [outputBytes, List.filterMap_cons]
      simp only [e1, if_true, readEntry, e2]
      have e3 : s.buf.toList.drop j = s.buf[j] :: s.buf.toList.drop (j + 1) := by
        rw [List.drop_eq_getElem_cons (by simpa using hlt)]; simp
      rw [e3, List.take_succ_cons]
      exact congrArg _ ho

/-- A command line issues its command (R65). -/
theorem step_command {s : State} {i : Instr} {rest : List HostOp} (hd : decode (encode i) = .ok i)
    (hp : s.pending = command i :: rest) (hb : s.busy = false) :
    step s = exec i (s.setPending rest) := by
  rw [step_issue hp hb]
  have e : (((encode i).setWidth 64).setWidth 32 : CommandWord) = encode i := by simp
  rw [e, issue, hd]

/-- The decision of the host loop (R170): it reads STATUS, and goes on if PH is SQUEEZE. -/
theorem step_squeezeLoop {s : State} {rest : List HostOp} (hp : s.pending = .squeezeLoop :: rest) :
    step s = .next (((s.setPending rest).respond statusOffset s.statusWord).setPending
      ((if s.phase = .squeeze then [command .squeeze, .readOutput, .squeezeLoop] else []) ++ rest)) := by
  have hr : busRead statusOffset 8 (s.setPending rest) =
      .next ((s.setPending rest).respond statusOffset s.statusWord) := by
    simp [busRead, mapEntry_status, readEntry, State.statusWord]
  have hs : (s.setPending rest).statusWord = s.statusWord := rfl
  simp only [step, hp, hostAction, hr, thenIssue, hs, squeezeTurn, phField_squeeze_iff, respond_pending,
    setPending_pending]

/-- The host's reading of the output (R170): it reads LASTK, and then that many bytes. -/
theorem step_readOutput {s : State} {rest : List HostOp} (hp : s.pending = .readOutput :: rest)
    (hb : s.busy = false) :
    step s = .next (((s.setPending rest).respond lastkOffset s.lastk).setPending
      (rbs 0 s.lastk.toNat ++ rest)) := by
  have hr : busRead lastkOffset 8 (s.setPending rest) =
      .next ((s.setPending rest).respond lastkOffset s.lastk) := busRead_of_entry mapEntry_lastk hb
  simp only [step, hp, hostAction, hr, thenIssue, respond_pending, setPending_pending, setPending_lastk]

/-- Reads outside BUF are no output. -/
theorem outputBytes_register {off : Offset} (v : BitVec 64) (h : 200 ≤ off.toNat) :
    outputBytes [⟨off, v⟩] = [] := by
  have h' : ¬off.toNat < 200 := by omega
  simp [outputBytes, h']

/-- One turn of the host loop in phase SQUEEZE: the host has read `min(168, OUTREM)` bytes of the
serialization, and the core has done what SQUEEZE does (R165, R170). -/
theorem reaches_squeezeTurn {s : State} {rest : List HostOp} (hp : s.pending = .squeezeLoop :: rest)
    (hs : s.phase = .squeeze) (hb : s.busy = false) :
    ∃ t, Reaches s t ∧ t.pending = .squeezeLoop :: rest ∧ t.busy = false ∧
      outputBytes t.responses =
        outputBytes s.responses ++ (stateToBytes s.lanes).toList.take (min 168 s.outrem.toNat) ∧
      t.phase = (commandEffect .squeeze s).phase ∧ t.lanes = (commandEffect .squeeze s).lanes ∧
      t.outrem = (commandEffect .squeeze s).outrem := by
  have st1 := step_squeezeLoop hp
  simp only [hs, if_true, List.cons_append, List.nil_append] at st1
  generalize hs1 : ((s.setPending rest).respond statusOffset s.statusWord).setPending
    (command .squeeze :: .readOutput :: .squeezeLoop :: rest) = s1 at st1
  have hb1 : s1.busy = false := by subst hs1; exact hb
  have st2 := step_command (s := s1) (i := .squeeze) (by decide) (by subst hs1; rfl) hb1
  generalize hs2 : s1.setPending (.readOutput :: .squeezeLoop :: rest) = s2 at st2
  have hph : s2.phase = .squeeze := by subst hs2 hs1; exact hs
  rw [exec_of_ne (by rw [hph]; decide)] at st2
  have hl : s2.lanes = s.lanes := by subst hs2 hs1; rfl
  have ho : s2.outrem = s.outrem := by subst hs2 hs1; rfl
  have hresp : s2.responses = s.responses ++ [⟨statusOffset, s.statusWord⟩] := by subst hs2 hs1; rfl
  have hb2 : s2.busy = false := by subst hs2; exact hb1
  have hpend : s2.pending = .readOutput :: .squeezeLoop :: rest := by subst hs2; rfl
  generalize hs3 : commandEffect .squeeze s2 = s3 at st2
  have hlast : s3.lastk.toNat = min 168 s.outrem.toNat ∧ s3.buf = stateToBytes s.lanes ∧ s3.busy = false ∧
      s3.phase = (commandEffect .squeeze s).phase ∧ s3.lanes = (commandEffect .squeeze s).lanes ∧
      s3.outrem = (commandEffect .squeeze s).outrem := by
    subst hs3
    simp only [commandEffect, hph, hs, ho, hl, ne_eq, not_true_eq_false, if_false]
    by_cases hk : 168 < s.outrem.toNat
    · have e : min 168 s.outrem.toNat = 168 := by omega
      simp only [hk, if_true, e, hb2]
      decide
    · have e : min 168 s.outrem.toNat = s.outrem.toNat := by omega
      simp only [hk, if_false, e, hb2, and_self]
  obtain ⟨h1, h2, h3, h4, h5, h6⟩ := hlast
  have hpend3 : s3.pending = .readOutput :: .squeezeLoop :: rest := by subst hs3; simp [hpend]
  have hresp3 : s3.responses = s.responses ++ [⟨statusOffset, s.statusWord⟩] := by subst hs3; simp [hresp]
  have st3 := step_readOutput hpend3 h3
  rw [h1] at st3
  generalize hs4 : ((s3.setPending (.squeezeLoop :: rest)).respond lastkOffset s3.lastk).setPending
    (rbs 0 (min 168 s.outrem.toNat) ++ .squeezeLoop :: rest) = s4 at st3
  obtain ⟨r, hr, hout⟩ := reaches_rbs (min 168 s.outrem.toNat) 0 (.squeezeLoop :: rest) s4 (by omega)
    (by subst hs4; exact h3) (by subst hs4; rfl)
  refine ⟨_, .head st1 (.head st2 (.head st3 hr)), rfl, by subst hs4; exact h3, ?_, ?_, ?_, ?_⟩
  · have e : s4.responses = s.responses ++ [⟨statusOffset, s.statusWord⟩] ++ [⟨lastkOffset, s3.lastk⟩] := by
      subst hs4; simp [hresp3]
    have eb : s4.buf = stateToBytes s.lanes := by subst hs4; exact h2
    simp only [e, outputBytes_append, outputBytes_register _ (show 200 ≤ statusOffset.toNat by decide),
      outputBytes_register _ (show 200 ≤ lastkOffset.toNat by decide), List.append_nil, hout, eb, List.drop_zero]
  · subst hs4; exact h4
  · subst hs4; exact h5
  · subst hs4; exact h6

end Sys2Proof.Machine
end

