-- ==== Sys2Proof/Laws/PerInstr.lean ====
section
/-! SUPPORT. Statements about every instruction as syntax, one lemma per constructor. -/

namespace Sys2Proof.Laws.EncodeFields

/-- The three fields of a well-formed command's word are its opcode, its operand (0 if it has none) and
zero (30_encoding.md R61 to R63). -/
def Statement (i : Instr) : Prop :=
  i.wf = true →
    opField (encode i) = i.opcode ∧ aField (encode i) = i.operand?.getD 0 ∧ rsvField (encode i) = 0

/-- The fields come from the number of the word. -/
theorem of_toNat (i : Instr) : Statement i := by
  intro h
  have h1 := encode_toNat h
  have h2 := operand_lt h
  have h3 := opcode_lt i
  rw [opField_eq, aField_eq, rsvField_eq, h1]
  omega

theorem init : Statement .init := of_toNat _
theorem b2s (L : Nat) : Statement (.b2s L) := of_toNat _
theorem s2b : Statement .s2b := of_toNat _
theorem xorrate : Statement .xorrate := of_toNat _
theorem pad (r : Nat) : Statement (.pad r) := of_toNat _
theorem theta : Statement .theta := of_toNat _
theorem rho : Statement .rho := of_toNat _
theorem pi : Statement .pi := of_toNat _
theorem chi : Statement .chi := of_toNat _
theorem iota (ir : Nat) : Statement (.iota ir) := of_toNat _
theorem round (ir : Nat) : Statement (.round ir) := of_toNat _
theorem permute : Statement .permute := of_toNat _
theorem absorb : Statement .absorb := of_toNat _
theorem final (r : Nat) : Statement (.final r) := of_toNat _
theorem squeeze : Statement .squeeze := of_toNat _

end Sys2Proof.Laws.EncodeFields
end

