-- ==== Sys2Proof/Tests/Slice0.lean ====
section
/-! SUPPORT. Small tests, with expected values from spec/95_test_vectors.md (its identifiers are named)
or worked from the rules by hand, and the witnesses that the hypotheses of each obligation can be met. -/

namespace Sys2Proof.Tests

set_option Elab.async false

open Sys2Proof Sys2Proof.Machine

/-! ### Helpers -/

/-- The outcome is a next state of which `p` holds. -/
def answers (r : Result) (p : State → Bool) : Bool :=
  match r with
  | .next t => p t
  | .fault _ => false
  | .refused _ => false

/-- The outcome is the stop `f`. -/
def stops (r : Result) (f : Fault) : Bool :=
  match r with
  | .next _ => false
  | .fault g => decide (g = f)
  | .refused _ => false

/-- Lanes from a list of (index, value), the others zero. -/
def sparse (entries : List (Nat × Lane)) : Lanes :=
  tabulate fun i => (entries.lookup i.val).getD 0

/-- The state after reset, with lanes `A`. -/
def withLanes (A : Lanes) : State := { State.reset with lanes := A }

/-- The state after reset, with the bytes `b` at the head of BUF. -/
def withBuf (b : List Byte) : State := { State.reset with buf := tabulate fun j => b.getD j.val 0 }

/-- `BUF[lo .. lo+n-1]` as a list. -/
def bytesAt (s : State) (lo n : Nat) : List Byte := (s.buf.toList.drop lo).take n

/-- Lane `i` of a state is its own number. -/
def counting : Lanes := tabulate fun i => BitVec.ofNat 64 i.val

def allOnes : Lanes := Vector.replicate 25 0xFFFFFFFFFFFFFFFF

/-- A state in phase ABSORB with OUTLEN = `n`, as INIT leaves it. -/
def absorbing (n : BitVec 64) : State := { State.reset with phase := .absorb, outlen := n }

/-- A state in phase SQUEEZE with OUTREM = `n`. -/
def squeezing (n : BitVec 64) : State := { State.reset with phase := .squeeze, outlen := n, outrem := n }

/-- A fault state, as a PhaseError of ABSORB leaves it (V-ERR-1). -/
def faulted : State := State.reset.raiseFault .phaseError 0x20

/-- A state with BUSY = 1, which no access of a run can see (R206). -/
def busyState : State := { State.reset with busy := true }

def doing (ops : List HostOp) (s : State) : State := { s with pending := ops }

/-! ### WellFormed: each check refuses an ill-formed term -/

theorem test_wf_refuses_b2s_256 : (Instr.b2s 256).wf = false := by decide
theorem test_wf_refuses_pad_256 : (Instr.pad 256).wf = false := by decide
theorem test_wf_refuses_iota_256 : (Instr.iota 256).wf = false := by decide
theorem test_wf_refuses_round_256 : (Instr.round 256).wf = false := by decide
theorem test_wf_refuses_final_256 : (Instr.final 256).wf = false := by decide
theorem test_wf_accepts_255 : (Instr.round 255).wf = true := by decide

/-! ### Decode: a word written from the fields of R61 and the opcode map of R63, per command -/

theorem test_decode_init : decode 0b0000000000000000_00000000_00000001 = .ok .init := by decide
theorem test_decode_b2s : decode 0b0000000000000000_11001000_00000010 = .ok (.b2s 200) := by decide
theorem test_decode_s2b : decode 0b0000000000000000_00000000_00000011 = .ok .s2b := by decide
theorem test_decode_xorrate : decode 0b0000000000000000_00000000_00000100 = .ok .xorrate := by decide
theorem test_decode_pad : decode 0b0000000000000000_10100111_00000101 = .ok (.pad 167) := by decide
theorem test_decode_theta : decode 0b0000000000000000_00000000_00010000 = .ok .theta := by decide
theorem test_decode_rho : decode 0b0000000000000000_00000000_00010001 = .ok .rho := by decide
theorem test_decode_pi : decode 0b0000000000000000_00000000_00010010 = .ok .pi := by decide
theorem test_decode_chi : decode 0b0000000000000000_00000000_00010011 = .ok .chi := by decide
theorem test_decode_iota : decode 0b0000000000000000_00010111_00010100 = .ok (.iota 23) := by decide
theorem test_decode_round : decode 0b0000000000000000_11111111_00010101 = .ok (.round 255) := by decide
theorem test_decode_permute : decode 0b0000000000000000_00000000_00010110 = .ok .permute := by decide
theorem test_decode_absorb : decode 0b0000000000000000_00000000_00100000 = .ok .absorb := by decide
theorem test_decode_final : decode 0b0000000000000000_00000011_00100001 = .ok (.final 3) := by decide
theorem test_decode_squeeze : decode 0b0000000000000000_00000000_00100010 = .ok .squeeze := by decide

/-- V-DEC-1, V-DEC-4, V-DEC-5. -/
theorem test_decode_rejects_unassigned :
    decode 0x00000000 = .error .unassignedOpcode ∧ decode 0x00000018 = .error .unassignedOpcode ∧
    decode 0x000000FF = .error .unassignedOpcode := by decide
/-- V-DEC-2, V-RND-18. -/
theorem test_decode_rejects_operand :
    decode 0x00000101 = .error .operandNotZero ∧ decode 0x00000110 = .error .operandNotZero := by decide
/-- V-DEC-3, V-PERM-5. -/
theorem test_decode_rejects_reserved :
    decode 0x00010001 = .error .reservedNotZero ∧ decode 0x00010016 = .error .reservedNotZero := by decide
/-- The last example of R63. -/
theorem test_encode_iota_23 : encode (.iota 23) = 0x00001714 := by decide
theorem test_decodeTableWord : decodeTableWord 32 0x0000C821 = some (.final 200) := by decide +kernel

/-- The word the host places is the one the very next step runs, from reset. -/
theorem test_withFetchWord_runs :
    answers (step (State.reset.withFetchWord 32 0x00000214)) (fun t => decide (t.lane 0 = 0x800000000000808A)) =
      true := by decide +kernel

/-! ### The commands, one step each -/

/-- V-SPG-1, its first command, from a state with something in every register INIT clears. -/
theorem test_init_clears :
    answers (exec .init { squeezing 169 with lanes := counting, lastk := 7 })
      (fun t => decide (t.lanes = zeroLanes ∧ t.phase = .absorb ∧ t.outrem = 0 ∧ t.lastk = 0 ∧ t.outlen = 169)) =
      true := by decide +kernel
/-- V-COD-3. -/
theorem test_b2s_short_group :
    answers (exec (.b2s 9) (withBuf [0, 1, 2, 3, 4, 5, 6, 7, 8, 9]))
      (fun t => decide (t.lanes = sparse [(0, 0x0706050403020100), (1, 8)])) = true := by decide +kernel
/-- V-COD-11. -/
theorem test_b2s_201_faults :
    answers (exec (.b2s 201) (withLanes counting))
      (fun t => decide (t.statusWord = 0x503 ∧ t.errcmd = 0xC902 ∧ t.lanes = counting)) = true := by
  decide +kernel
/-- V-COD-8, the S2B half. -/
theorem test_s2b_little_endian :
    answers (exec .s2b (withLanes (sparse [(0, 0x0123456789ABCDEF), (24, 0xFEDCBA9876543210)])))
      (fun t => decide (bytesAt t 0 9 = [0xEF, 0xCD, 0xAB, 0x89, 0x67, 0x45, 0x23, 0x01, 0x00] ∧
        bytesAt t 192 8 = [0x10, 0x32, 0x54, 0x76, 0x98, 0xBA, 0xDC, 0xFE])) = true := by decide +kernel
/-- V-COD-10. -/
theorem test_xorrate_keeps_the_capacity :
    answers (exec .xorrate
        { State.reset with
          lanes := sparse [(0, 0xFF), (21, 5)]
          buf := ((Vector.replicate 200 0xEE).set 0 0x0F).mapIdx fun j b =>
            if j = 0 then b else if j = 160 then 1 else if j < 168 then 0 else b })
      (fun t => decide (t.lanes = sparse [(0, 0xF0), (20, 1), (21, 5)])) = true := by decide +kernel
/-- V-PAD-2. -/
theorem test_pad_3 :
    answers (exec (.pad 3) (withBuf ([0x61, 0x62, 0x63] ++ List.replicate 197 0xAA)))
      (fun t => decide (bytesAt t 0 6 = [0x61, 0x62, 0x63, 0x1F, 0, 0] ∧ bytesAt t 165 4 = [0, 0, 0x80, 0xAA])) =
      true := by decide +kernel
/-- V-PAD-3: the suffix and the end marker meet. -/
theorem test_pad_167 :
    answers (exec (.pad 167) (withBuf (List.replicate 200 0x41)))
      (fun t => decide (bytesAt t 165 4 = [0x41, 0x41, 0x9F, 0x41])) = true := by decide +kernel
/-- V-RND-3. -/
theorem test_theta_counting :
    answers (exec .theta (withLanes counting))
      (fun t => decide (t.lanes = #v[
        0x1A, 0x09, 0x0D, 0x1D, 0x2F, 0x1F, 0x0E, 0x08, 0x16, 0x22, 0x10, 0x03, 0x03, 0x13, 0x25,
        0x15, 0x18, 0x1E, 0x0C, 0x38, 0x0E, 0x1D, 0x19, 0x09, 0x33])) = true := by decide +kernel
/-- V-RND-5: the rotation wraps. -/
theorem test_rho_wraps :
    answers (exec .rho (withLanes (sparse [(1, 0x8000000000000000)])))
      (fun t => decide (t.lanes = sparse [(1, 1)])) = true := by decide +kernel
/-- V-RND-4. -/
theorem test_rho_offsets :
    answers (exec .rho (withLanes (Vector.replicate 25 1)))
      (fun t => decide (t.lane 0 = 1 ∧ t.lane 1 = 2 ∧ t.lane 2 = 0x4000000000000000 ∧ t.lane 24 = 0x4000)) =
      true := by decide +kernel
/-- V-RND-6. -/
theorem test_pi_gathers :
    answers (exec .pi (withLanes counting))
      (fun t => decide (t.lanes = #v[
        0, 6, 12, 18, 24, 3, 9, 10, 16, 22, 1, 7, 13, 19, 20, 4, 5, 11, 17, 23, 2, 8, 14, 15, 21])) = true := by
  decide +kernel
/-- V-RND-7. -/
theorem test_chi_row :
    answers (exec .chi (withLanes (sparse [(0, 0xF0F0F0F0F0F0F0F0), (1, 0xFF00FF00FF00FF00),
        (2, 0x0123456789ABCDEF), (4, 0xFFFFFFFFFFFFFFFF)])))
      (fun t => decide (t.lanes = sparse [(0, 0xF0D3F097F05BF01F), (1, 0xFF00FF00FF00FF00),
        (2, 0xFEDCBA9876543210), (4, 0xF0FFF0FFF0FFF0FF)])) = true := by decide +kernel
/-- V-RND-12. -/
theorem test_iota_23 :
    answers (exec (.iota 23) (withLanes allOnes))
      (fun t => decide (t.lanes = allOnes.set 0 0x7FFFFFFF7FFF7FF7)) = true := by decide +kernel
/-- V-RND-16. -/
theorem test_iota_24_faults :
    answers (exec (.iota 24) State.reset) (fun t => decide (t.statusWord = 0x503 ∧ t.errcmd = 0x1814)) = true := by
  decide +kernel
/-- V-RND-15. -/
theorem test_round_0 :
    answers (exec (.round 0) (withLanes (sparse [(0, 1)])))
      (fun t => decide (t.lanes = sparse [
        (1, 0x0000100000000000), (2, 0x8000), (3, 1), (4, 0x0000100000008000), (6, 0x0000200000200000),
        (8, 0x0000200000000000), (9, 0x200000), (10, 2), (11, 0x200), (13, 0x202), (15, 0x10000400),
        (17, 0x400), (18, 0x10000000), (20, 0x0000010000000000), (22, 0x0000010000000004), (24, 4)])) = true := by
  decide +kernel
/-- V-RND-17. -/
theorem test_round_255_faults :
    answers (exec (.round 255) State.reset) (fun t => decide (t.statusWord = 0x503 ∧ t.errcmd = 0xFF15)) =
      true := by decide +kernel

/-- V-PERM-1, all 25 lanes, a row of the 5 x 5 matrix a line. -/
theorem test_permute_zero :
    permute zeroLanes =
      (#v[0xF1258F7940E1DDE7, 0x84D5CCF933C0478A, 0xD598261EA65AA9EE, 0xBD1547306F80494D, 0x8B284E056253D057] : Vector Lane 5) ++
      (#v[0xFF97A42D7F8E6FD4, 0x90FEE5A0A44647C4, 0x8C5BDA0CD6192E76, 0xAD30A6F71B19059C, 0x30935AB7D08FFC64] : Vector Lane 5) ++
      (#v[0xEB5AA93F2317D635, 0xA9A6E6260D712103, 0x81A57C16DBCF555F, 0x43B831CD0347C826, 0x01F22F1A11A5569F] : Vector Lane 5) ++
      (#v[0x05E5635A21D9AE61, 0x64BEFEF28CC970F2, 0x613670957BC46611, 0xB87C5A554FD00ECB, 0x8C3EE88A1CCF32C8] : Vector Lane 5) ++
      (#v[0x940C7922AE3A2614, 0x1841F924A2C509E4, 0x16F53526E70465C2, 0x75F644E97F30A13B, 0xEAF1FF7B5CECA249] : Vector Lane 5) := by
  decide +kernel
/-- PERMUTE goes through its driver with the round counter (R35) and ends where V-PERM-1 does. -/
theorem test_permute_command :
    exec .permute State.reset = .next { State.reset with lanes := permute zeroLanes, roundCounter := none } :=
  exec_eq .permute State.reset
/-- V-SPG-7: the block of zeros leaves the lanes zero before the permutation. -/
theorem test_absorb_zero_block :
    absorbXor zeroLanes (absorbing 0).rateBlock = zeroLanes ∧
      exec .absorb (absorbing 0) =
        .next { absorbing 0 with
          lanes := permute (absorbXor zeroLanes (absorbing 0).rateBlock), roundCounter := none } :=
  ⟨by decide +kernel, exec_eq .absorb (absorbing 0)⟩
/-- V-ERR-1. -/
theorem test_absorb_in_idle_faults :
    answers (exec .absorb State.reset) (fun t => decide (t.statusWord = 0x403 ∧ t.errcmd = 0x20)) = true := by
  decide +kernel
/-- V-SPG-1. -/
theorem test_final_0 :
    answers (exec (.final 0) (absorbing 0))
      (fun t => decide (t.statusWord = 0 ∧ t.outrem = 0 ∧ t.lane 0 = 0x7D828FE8A42B9C7F ∧
        bytesAt t 0 2 = [0x1F, 0x00] ∧ bytesAt t 166 3 = [0x00, 0x80, 0x00])) = true := by decide +kernel
/-- V-ERR-5: InvalidArgument comes before PadPrecondition. -/
theorem test_final_negative_length :
    answers (exec (.final 200) (absorbing 0xFFFFFFFFFFFFFFFF))
      (fun t => decide (t.statusWord = 0x103 ∧ t.errcmd = 0xC821 ∧ t.outrem = 0)) = true := by decide +kernel
/-- V-SPG-2, its SQUEEZE: 32 bytes left, the output starts 7f 9c 2b a4, no permutation. -/
theorem test_squeeze_last :
    answers (exec .squeeze { squeezing 32 with lanes := sparse [(0, 0x7D828FE8A42B9C7F)] })
      (fun t => decide (t.lastk = 32 ∧ t.outrem = 0 ∧ t.phase = .idle ∧ t.lane 0 = 0x7D828FE8A42B9C7F ∧
        bytesAt t 0 4 = [0x7F, 0x9C, 0x2B, 0xA4])) = true := by decide +kernel
/-- V-SPG-4, its first SQUEEZE: one byte more than the rate, so it permutes, and BUF has the bytes from
before. -/
theorem test_squeeze_more :
    exec .squeeze (squeezing 169) =
      .next { squeezing 169 with
        buf := stateToBytes zeroLanes, lastk := 168, outrem := 1, lanes := permute zeroLanes, roundCounter := none } :=
  exec_eq .squeeze (squeezing 169)

/-! ### Faults, reset and the host's accesses -/

/-- V-ERR-8: INIT in the fault state is ignored. -/
theorem test_fault_ignores_init :
    answers (exec .init faulted) (fun t => decide (t = faulted)) = true := by decide +kernel
/-- V-ERR-9: host accesses still work in the fault state. -/
theorem test_fault_host_access :
    answers (runSteps 2 (doing [wb 0 5, rb 0] faulted))
      (fun t => decide (t.responses = [⟨0, 5⟩] ∧ t.phase = .fault)) = true := by decide +kernel
/-- R200. -/
theorem test_reset_leaves_fault :
    answers (step (doing [.reset] { faulted with lanes := counting, outlen := 9 }))
      (fun t => decide (t = State.reset)) = true := by decide +kernel
/-- P6: a lane written by the host reads back, little-endian. -/
theorem test_lane_access :
    answers (runSteps 3 (doing [wl 24 0xFEDCBA9876543210, rl 24, rr .status] State.reset))
      (fun t => decide (t.responses = [⟨0x1C0, 0xFEDCBA9876543210⟩, ⟨0x208, 0⟩])) = true := by decide +kernel
/-- R24, R46: OUTLEN is written and read; CMD reads as 0; a write to OUTREM is ignored. -/
theorem test_register_access :
    answers (runSteps 4 (doing [wrOutlen 7, rr .outlen, .write 0x218 8 9, .read 0x200 4] State.reset))
      (fun t => decide (t.responses = [⟨0x210, 7⟩, ⟨0x200, 0⟩] ∧ t.outrem = 0)) = true := by decide +kernel
/-- R42: a reserved offset, a wrong width, and an access not at a register's first byte. -/
theorem test_inadmissible_accesses :
    stops (busRead 0x0C8 1 State.reset) .inadmissibleAccess = true ∧
    stops (busRead 0x100 4 State.reset) .inadmissibleAccess = true ∧
    stops (busWrite 0x104 8 0 State.reset) .inadmissibleAccess = true ∧
    stops (busWrite 0x230 8 0 State.reset) .inadmissibleAccess = true := by decide +kernel
/-- R40, R65: a host line whose offset would pass 0xFFF reaches no register (log 15). -/
theorem test_host_line_past_the_map :
    stops (hostAction (wb 4096 5) State.reset) .inadmissibleAccess = true ∧
    stops (hostAction (rl 480) State.reset) .inadmissibleAccess = true := by decide +kernel
/-- R206. -/
theorem test_busy_accesses :
    stops (busWrite 0x200 4 1 busyState) .accessWhileBusy = true ∧
    answers (busRead 0x208 8 busyState) (fun t => decide (t.responses = [⟨0x208, 4⟩])) = true := by decide +kernel
/-- R170: the loop goes on exactly while the STATUS it read says SQUEEZE. -/
theorem test_squeeze_loop :
    answers (step (doing [.squeezeLoop] (squeezing 5)))
      (fun t => decide (t.pending = [command .squeeze, .readOutput, .squeezeLoop])) = true ∧
    answers (step (doing [.squeezeLoop] State.reset)) (fun t => decide (t.pending = [])) = true := by decide +kernel
/-- R24, R65, R66: the lines of program P2 that come before the first command. -/
theorem test_wbs_lines :
    wbs 0 [0x61, 0x62, 0x63] = [.write 0 1 0x61, .write 1 1 0x62, .write 2 1 0x63] := by decide

/-! ### Witnesses: the hypotheses of each obligation can be met -/

/-- DecodeOfEncodeIsTheCommand: with and without an operand, at both ends of A. -/
theorem witness_wellFormed :
    Instr.init.wf = true ∧ (Instr.b2s 0).wf = true ∧ (Instr.final 255).wf = true := by decide
/-- EncodeOfDecodeIsTheWord, StepRunsTheDecodedCommand. -/
theorem witness_decodes : decode 0x0000FF21 = .ok (.final 255) ∧ decode 0x00000022 = .ok .squeeze := by decide
/-- WordIsTheCommandOfTheRowItMatches: its three clauses, on the rows B2S and INIT. -/
theorem witness_rows :
    (⟨"B2S", 0x00000002, 0xFFFF00FF, true⟩ : OpcodeRow) ∈ opcodeTable ∧
    (0x0000FF02 : CommandWord) &&& 0xFFFF00FF = 0x00000002 ∧ decode 0x0000FF02 = .ok (.b2s 255) ∧
    (⟨"INIT", 0x00000001, 0xFFFFFFFF, false⟩ : OpcodeRow) ∈ opcodeTable ∧
    (0x00000001 : CommandWord) &&& 0xFFFFFFFF = 0x00000001 := by decide
/-- IllegalWordsRaiseIllegalCommand: the ends of every unassigned range, RSV, and A. -/
theorem witness_illegal :
    State.reset.phase ≠ .fault ∧
    ([0x00, 0x06, 0x0F, 0x17, 0x1F, 0x23, 0xFF].all fun w => decide (decode w = .error .unassignedOpcode)) = true ∧
    decode 0xFFFF0002 = .error .reservedNotZero ∧ decode 0x0000FF22 = .error .operandNotZero := by decide
/-- StepRunsTheDecodedCommand: BUSY 0, the write to CMD first, a word that decodes. -/
theorem witness_step_runs :
    (doing [command (.round 3), .reset] State.reset).busy = false ∧
    (doing [command (.round 3), .reset] State.reset).pending = .write 0x200 4 0x00000315 :: [.reset] ∧
    decode ((0x00000315 : BitVec 64).setWidth 32) = .ok (.round 3) := by decide
/-- StepOnAnIllegalWordFaults: in the fault state and outside it. -/
theorem witness_step_illegal :
    (doing [.write 0x200 4 0x18] State.reset).busy = false ∧
    (doing [.write 0x200 4 0x18] State.reset).pending = .write 0x200 4 0x18 :: [] ∧
    decode ((0x18 : BitVec 64).setWidth 32) = .error .unassignedOpcode ∧
    (doing [.write 0x200 4 0x18] faulted).busy = false ∧
    (doing [.write 0x200 4 0x18] faulted).phase = .fault ∧ State.reset.phase ≠ .fault := by decide
/-- StepPerformsTheHostAccess: both clauses. -/
theorem witness_step_access :
    (doing [wb 199 1] State.reset).pending = .write 0x0C7 1 1 :: [] ∧
    (doing [rr .errcmd] faulted).pending = .read 0x228 8 :: [] ∧ (doing [rr .errcmd] faulted).busy = false ∧
    readValue 0x228 8 (doing [rr .errcmd] faulted) = some 0x20 := by decide +kernel
/-- WaitingAndResetKeepTheHostSide, ResetSetsEveryPieceOfState: nothing pending; a reset pending in the
fault state and with BUSY 1. -/
theorem witness_waiting_and_reset :
    State.reset.pending = [] ∧ (doing [.reset, rb 0] faulted).pending = .reset :: [rb 0] ∧
    (doing [.reset] busyState).pending = .reset :: [] ∧ (doing [.reset] busyState).busy = true := by decide +kernel
/-- FaultStateIgnoresEveryCommand, OnlyResetLeavesTheFaultState: a fault state whose step takes a command. -/
theorem witness_fault_state :
    (doing [command .init] faulted).phase = .fault ∧
    (doing [command .init] faulted).pending.head? ≠ some .reset ∧
    answers (step (doing [command .init] faulted)) (fun t => decide (t.phase = .fault)) = true := by decide +kernel
/-- FaultEntryIsPrecise: a word that does not decode, and a command whose check fails. -/
theorem witness_fault_entry :
    State.reset.phase ≠ .fault ∧
    answers (issue 0x18 State.reset) (fun t => decide (t.phase = .fault)) = true ∧
    answers (issue 0x22 State.reset) (fun t => decide (t.phase = .fault)) = true := by decide +kernel
/-- OperandRangeIsRaisedBeyondTheTables: the first and the last value of each clause, and its legal
neighbour. -/
theorem witness_operandRange :
    (squeezing 1).phase ≠ .fault ∧
    (200 < 201 ∧ decode 0x0000C902 = .ok (.b2s 201)) ∧ (200 < 255 ∧ decode 0x0000FF02 = .ok (.b2s 255)) ∧
    (23 < 24 ∧ decode 0x00001814 = .ok (.iota 24)) ∧ (23 < 255 ∧ decode 0x0000FF14 = .ok (.iota 255)) ∧
    (23 < 24 ∧ decode 0x00001815 = .ok (.round 24)) ∧ (23 < 255 ∧ decode 0x0000FF15 = .ok (.round 255)) ∧
    answers (issue 0x0000C802 (squeezing 1)) (fun t => decide (t.err = none)) = true ∧
    answers (issue 0x00001714 (squeezing 1)) (fun t => decide (t.err = none)) = true := by decide +kernel
/-- PhaseErrorIsRaisedOutOfOrder: every phase that is out of order for the command. -/
theorem witness_phaseError :
    State.reset.phase ≠ .fault ∧ State.reset.phase ≠ .absorb ∧ State.reset.phase ≠ .squeeze ∧
    (squeezing 1).phase ≠ .fault ∧ (squeezing 1).phase ≠ .absorb ∧
    (absorbing 1).phase ≠ .fault ∧ (absorbing 1).phase ≠ .squeeze ∧
    decode 0x00000020 = .ok .absorb ∧ decode 0x0000C821 = .ok (.final 200) ∧ decode 0x00000022 = .ok .squeeze := by
  decide
/-- InvalidArgumentIsRaisedOnNegativeLength: both sides of 2^63, and the tail 167. -/
theorem witness_invalidArgument :
    (absorbing 0x8000000000000000).phase = .absorb ∧ 2 ^ 63 ≤ (absorbing 0x8000000000000000).outlen.toNat ∧
    (absorbing 0x7FFFFFFFFFFFFFFF).phase = .absorb ∧ (absorbing 0x7FFFFFFFFFFFFFFF).outlen.toNat < 2 ^ 63 ∧
    decode 0x0000A721 = .ok (.final 167) ∧ 167 < 168 := by decide
/-- PadPreconditionIsRaisedOnLongTail: the least long tail, in both clauses. -/
theorem witness_padPrecondition :
    168 ≤ 168 ∧ State.reset.phase ≠ .fault ∧ decode 0x0000A805 = .ok (.pad 168) ∧
    (absorbing 0x7FFFFFFFFFFFFFFF).phase = .absorb ∧ (absorbing 0x7FFFFFFFFFFFFFFF).outlen.toNat < 2 ^ 63 ∧
    decode 0x0000A821 = .ok (.final 168) := by decide
/-- PhaseFollowsTheTransitionTable, EveryCommandAnswersANextState: a row of each phase (the successes of
FINAL and SQUEEZE at their boundary lengths are the tests above). -/
theorem witness_transitions :
    answers (exec .permute faulted) (fun t => decide (t.phase = .fault)) = true ∧
    answers (exec .init (squeezing 1)) (fun t => decide (t.phase = .absorb)) = true ∧
    answers (exec (.final 168) (absorbing 0)) (fun t => decide (t.phase = .fault)) = true ∧
    answers (exec .squeeze (squeezing 168)) (fun t => decide (t.phase = .idle)) = true ∧
    answers (exec .theta (absorbing 0)) (fun t => decide (t.phase = .absorb)) = true ∧
    answers (exec (.pad 168) State.reset) (fun t => decide (t.phase = .fault ∧ t.err ≠ none)) = true := by
  decide +kernel
/-- The statements on B2S, S2B, XORRATE, the round operations, PERMUTE, PAD and INIT: a state outside the
fault state, and the ends of each operand's range. -/
theorem witness_not_fault :
    (withLanes counting).phase ≠ .fault ∧ (squeezing 1).phase ≠ .fault ∧ 0 ≤ 200 ∧ 200 ≤ 200 ∧
    (0 : Fin 24).val < 24 ∧ (23 : Fin 24).val < 24 ∧ 0 < 168 ∧ 167 < 168 := by decide
/-- AbsorbXorIsTheXorOfAllLanes: the lanes on both sides of the rate's end. -/
theorem witness_rate_lanes : (20 : Fin 25).val < 21 ∧ 21 ≤ (21 : Fin 25).val := by decide
/-- CodecConversionsAreInverse: the longest byte sequence. -/
theorem witness_codec_length : (List.replicate 200 (0xFF : Byte)).length ≤ 200 := by decide +kernel
/-- RotationMovesEveryBit: both ends of `n` and `k`. -/
theorem witness_rotation :
    (0 < 64 ∧ 63 < 64) ∧ rotl64 0x8000000000000001 63 = 0xC000000000000000 ∧ rotl64 5 0 = 5 := by decide +kernel
/-- TwentyFourRoundCommandsEqualPermute. -/
theorem witness_no_counter : (withLanes counting).roundCounter = none := by decide
/-- PadXorsTheSuffixAndTheEndMarker: the empty and the longest tail. -/
theorem witness_tail :
    ([] : List Byte).length < 168 ∧ (List.replicate 167 (0x41 : Byte)).length < 168 ∧
    (List.replicate 167 (0x41 : Byte)).length = 167 := by decide +kernel
/-- AbsorbIsXorrateThenPermute, FinalPadsAbsorbsAndStartsSqueezing: the least and the greatest length. -/
theorem witness_final :
    (absorbing 0).phase = .absorb ∧ 0 ≤ sint64 (absorbing 0).outlen ∧ (absorbing 0x7FFFFFFFFFFFFFFF).phase = .absorb ∧
    0 < sint64 (absorbing 0x7FFFFFFFFFFFFFFF).outlen ∧ 167 < 168 := by decide
/-- SqueezeEmitsAndPermutesOnlyIfNeeded: both sides of the rate. -/
theorem witness_squeeze :
    (squeezing 168).phase = .squeeze ∧ (squeezing 168).outrem.toNat ≤ 168 ∧
    (squeezing 169).phase = .squeeze ∧ 168 < (squeezing 169).outrem.toNat := by decide
/-- OutlenIsReadOnlyByFinal, CommandsWriteOnlyTheirOwnState: a command other than FINAL that answers, and
commands that do change ERR, PH, BUSY, S, BUF, OUTREM and the round counter. -/
theorem witness_changes :
    (∀ r, Instr.b2s 8 ≠ .final r) ∧
    answers (exec (.b2s 8) (withBuf [1])) (fun t => decide (t.lanes ≠ (withBuf [1]).lanes)) = true ∧
    answers (exec (.pad 0) State.reset) (fun t => decide (t.buf ≠ State.reset.buf)) = true ∧
    answers (exec .squeeze (squeezing 5)) (fun t => decide (t.outrem ≠ (squeezing 5).outrem)) = true ∧
    answers (exec .absorb State.reset)
      (fun t => decide (t.errcmd ≠ State.reset.errcmd ∧ t.phase ≠ State.reset.phase)) = true ∧
    answers (exec .absorb busyState) (fun t => decide (t.busy ≠ busyState.busy)) = true ∧
    answers (exec .squeeze { squeezing 169 with roundCounter := some 0 })
      (fun t => decide (t.roundCounter ≠ some 0)) = true :=
  ⟨fun _ h => Instr.noConfusion h, by decide +kernel, by decide +kernel, by decide +kernel, by decide +kernel,
    by decide +kernel, by decide +kernel⟩
/-- CommandsReadOnlyTheStagedBytes: buffers that differ only outside the bytes read, in each clause. -/
theorem witness_staged_bytes :
    ((∀ j : Fin 168, ((absorbing 1).buf.set 168 7)[j.val] = (absorbing 1).buf[j.val]) ∧
      (∃ t, exec .absorb (absorbing 1) = .next t) ∧
      ∃ t, exec .absorb { absorbing 1 with buf := (absorbing 1).buf.set 168 7 } = .next t) ∧
    ((∀ j : Fin 200, j.val < 167 → ((absorbing 1).buf.set 167 7)[j] = (absorbing 1).buf[j]) ∧
      (absorbing 1).phase = .absorb ∧ 0 ≤ sint64 (absorbing 1).outlen ∧
      (∃ t, exec (.final 167) (absorbing 1) = .next t) ∧
      ∃ t, exec (.final 167) { absorbing 1 with buf := (absorbing 1).buf.set 167 7 } = .next t) ∧
    (squeezing 1).phase = .squeeze :=
  ⟨⟨fun j => Vector.getElem_set_ne _ _ (by omega), ⟨_, exec_eq _ _⟩, ⟨_, exec_eq _ _⟩⟩,
    ⟨fun j h => Vector.getElem_set_ne _ _ (by omega), rfl, by decide, ⟨_, exec_eq _ _⟩, ⟨_, exec_eq _ _⟩⟩, rfl⟩
/-- ShakeOutputsAreExactAndPrefixConsistent. -/
theorem witness_lengths : 168 < 169 := by decide
/-- ShakeHostSequenceComputesShake128: a start in the middle of another computation, a length on each side
of zero. -/
theorem witness_shake_host :
    (doing (shakeProgram [0x61, 0x62, 0x63] 32 ++ [.reset]) (squeezing 7)).phase ≠ .fault ∧
    (doing (shakeProgram [0x61, 0x62, 0x63] 32 ++ [.reset]) (squeezing 7)).busy = false ∧
    (doing (shakeProgram [0x61, 0x62, 0x63] 32 ++ [.reset]) (squeezing 7)).pending =
      shakeProgram [0x61, 0x62, 0x63] 32 ++ [.reset] ∧
    0 ≤ sint64 32 ∧ sint64 0x8000000000000000 < 0 := by decide +kernel
/-- EveryCommandAnswersANextState (also its error clause), and the host-map statements with BUSY = 0. -/
theorem witness_not_busy :
    (squeezing 1).busy = false ∧ faulted.busy = false ∧ State.reset.phase ≠ .fault ∧
    answers (exec .absorb State.reset) (fun t => decide (t.phase = .fault)) = true := by decide +kernel
/-- EveryStepKeepsTheInvariant: a state that is not reset meets it, and its step answers. -/
theorem witness_invariant :
    (doing [command .squeeze] (squeezing 5)).Inv ∧
    answers (step (doing [command .squeeze] (squeezing 5))) (fun t => decide (t.Inv ∧ t.phase = .idle)) = true := by
  decide +kernel
/-- AdmittedHostIsNeverStuck: every kind of host action. -/
theorem witness_admitted :
    (doing [wb 0 1, rl 24, .reset, .squeezeLoop, .readOutput, command .init] (squeezing 5)).Inv ∧
    (doing [wb 0 1, rl 24, .reset, .squeezeLoop, .readOutput, command .init] (squeezing 5)).HostAdmitted := by
  decide +kernel
/-- AccessesOutsideTheMapAreStuck: the ends of the gaps, wrong widths, and misaligned accesses. -/
theorem witness_not_admitted :
    ([((0x0C7 : Offset), 8), (0x0C8, 1), (0x0FF, 1), (0x100, 1), (0x101, 8), (0x1C1, 8), (0x1C8, 8), (0x1FF, 4),
      (0x200, 8), (0x201, 4), (0x208, 4), (0x229, 8), (0x230, 8), (0xFFF, 1)].all fun p =>
        decide (¬ ((p.1.toNat ≤ 0x0C7 ∧ p.2 = 1) ∨
          (0x100 ≤ p.1.toNat ∧ p.1.toNat ≤ 0x1C0 ∧ p.1.toNat % 8 = 0 ∧ p.2 = 8) ∨ (p.1 = 0x200 ∧ p.2 = 4) ∨
          ((p.1 = 0x208 ∨ p.1 = 0x210 ∨ p.1 = 0x218 ∨ p.1 = 0x220 ∨ p.1 = 0x228) ∧ p.2 = 8)))) = true := by
  decide +kernel
/-- BufferAccessesReadAndWriteOneByte, LaneAccessesReadAndWriteOneLane, RegisterAccessesFollowTheMap: the
ends of each array and the named registers, in a fault state too. -/
theorem witness_map_ends :
    mapEntry (BitVec.ofNat 12 0) 1 = some (.buf 0) ∧ mapEntry (BitVec.ofNat 12 199) 1 = some (.buf 199) ∧
    mapEntry (BitVec.ofNat 12 0x100) 8 = some (.lane 0) ∧ mapEntry (BitVec.ofNat 12 0x1C0) 8 = some (.lane 24) ∧
    mapEntry 0x228 8 = some .errcmd ∧ faulted.busy = false := by decide +kernel
/-- ReadsHaveNoSideEffectAndAreIdempotent: an admitted read, with BUSY 0 and of STATUS with BUSY 1. -/
theorem witness_reads :
    answers (busRead 0x0C7 1 State.reset) (fun _ => true) = true ∧
    answers (busRead 0x208 8 busyState) (fun _ => true) = true := by decide +kernel
/-- BusyAdmitsOnlyTheStatusRead: STATUS itself and another location, while BUSY = 1. -/
theorem witness_busy :
    busyState.busy = true ∧ (mapEntry 0x208 8).isSome = true ∧ (mapEntry 0x228 8).isSome = true ∧
    (0x228 : Offset) ≠ 0x208 := by decide +kernel
/-- AddressesAreOffsetsFromTheBase: the first address past the map. -/
theorem witness_outside_address : Config.baseAddr + 0x1000 ≤ Config.baseAddr + 0x1000 := Nat.le_refl _

end Sys2Proof.Tests
end

section
/-! R6: the rotation, read bit by bit. -/

namespace Sys2Proof.Machine

/-- R6 in the direction of the bits' movement. The two cases are the bits that stay inside the word, which the
left shift brings to `k + n`, and those that leave it at the top, which come back at `k + n - 64`. -/
theorem rotl64_getLsbD_add (v : Lane) (n k : Nat) (hn : n < 64) (hk : k < 64) :
    (rotl64 v n).getLsbD ((k + n) % 64) = v.getLsbD k := by
  rw [rotl64_eq_rotateLeft v n hn, BitVec.getLsbD_rotateLeft, Nat.mod_eq_of_lt hn]
  by_cases hstay : k + n < 64
  · have hpos : (k + n) % 64 = k + n := Nat.mod_eq_of_lt hstay
    simp [hpos, hstay]
  · have hpos : (k + n) % 64 = k + n - 64 := by omega
    have hlow : k + n - 64 < n := by omega
    have hback : 64 - n + (k + n - 64) = k := by omega
    simp [hpos, hlow, hback]

/-- Settles O25: the bit form by the lemma above, the shift form by the definition of `rotl64`. -/
theorem rotationMovesEveryBit : Obligations.RotationMovesEveryBit := by
  intro v n k hn hk
  exact ⟨rotl64_getLsbD_add v n k hn hk, rfl⟩

end Sys2Proof.Machine
end

section
/-! R25 to R27: the fields of STATUS, each cut out of the concatenation that makes the word. -/

namespace Sys2Proof.Machine

theorem statusWord_busy (s : State) : s.statusWord.getLsbD 2 = s.busy := by
  rw [State.statusWord, BitVec.getLsbD_append, BitVec.getLsbD_append]
  simp

/-- A field above PH and BUSY is a field of the upper 61 bits, which hold ERR between reserved zeros. -/
theorem statusWord_extract_above_busy (s : State) {start : Nat} (h : 3 ≤ start) (len : Nat) :
    s.statusWord.extractLsb' start len =
      (0#53 ++ errField s.err ++ 0#5).extractLsb' (start - 3) len :=
  calc s.statusWord.extractLsb' start len
      = (0#53 ++ errField s.err ++ 0#5 ++ BitVec.ofBool s.busy).extractLsb' (start - 2) len :=
        BitVec.extractLsb'_append_eq_of_le (by omega)
    _ = (0#53 ++ errField s.err ++ 0#5).extractLsb' (start - 3) len :=
        BitVec.extractLsb'_append_eq_of_le (by omega)

theorem statusWord_reserved_low (s : State) : s.statusWord.extractLsb' 3 5 = 0 := by
  rw [statusWord_extract_above_busy s (by decide)]
  exact BitVec.extractLsb'_append_eq_right

/-- A field above bit 7 is a field of the upper 56 bits, which hold ERR below reserved zeros. -/
theorem statusWord_extract_from_err (s : State) {start : Nat} (h : 8 ≤ start) (len : Nat) :
    s.statusWord.extractLsb' start len = (0#53 ++ errField s.err).extractLsb' (start - 8) len := by
  rw [statusWord_extract_above_busy s (by omega), BitVec.extractLsb'_append_eq_of_le (by omega),
    Nat.sub_sub]

theorem statusWord_err (s : State) : s.statusWord.extractLsb' 8 3 = errField s.err := by
  rw [statusWord_extract_from_err s (by decide)]
  exact BitVec.extractLsb'_append_eq_right

theorem statusWord_reserved_high (s : State) : s.statusWord.extractLsb' 11 53 = 0 := by
  rw [statusWord_extract_from_err s (by decide)]
  exact BitVec.extractLsb'_append_eq_left

theorem readValue_status (s : State) : readValue statusOffset 8 s = some s.statusWord := by
  rw [readValue, mapEntry_status]; rfl

/-- Settles O58: the two accesses through the map's entry for STATUS, then one lemma per field. -/
theorem statusWordHasItsFields : Obligations.StatusWordHasItsFields := by
  refine ⟨by decide, fun s => ⟨readValue_status s, fun v hb => ?write, ?ph, statusWord_busy s,
    statusWord_reserved_low s, ?err, statusWord_reserved_high s⟩⟩
  case write => exact busWrite_of_entry v mapEntry_status hb
  case ph =>
    have hph : s.statusWord.extractLsb' 0 2 = s.phase.code := phField_statusWord s
    rw [hph]; cases s.phase <;> rfl
  case err =>
    rw [statusWord_err]
    cases s.err with
    | none => rfl
    | some c => cases c <;> rfl

end Sys2Proof.Machine
end

section
/-! R41 to R47: what an access reaches through the map, and what it changes there. -/

namespace Sys2Proof.Machine

/-- R41: an access the map admits is one of the rows of its table. -/
theorem mapEntry_cases {off : Offset} {width : Nat} {e : MapEntry} (h : mapEntry off width = some e) :
    (off.toNat ≤ 0x0C7 ∧ width = 1) ∨
    (0x100 ≤ off.toNat ∧ off.toNat ≤ 0x1C0 ∧ off.toNat % 8 = 0 ∧ width = 8) ∨
    (off = 0x200 ∧ width = 4) ∨
    ((off = 0x208 ∨ off = 0x210 ∨ off = 0x218 ∨ off = 0x220 ∨ off = 0x228) ∧ width = 8) := by
  unfold mapEntry at h
  dsimp only at h
  split_ifs at h with hbuf hw hlane hw hcmd hw hw hstatus houtlen houtrem hlastk herrcmd
  · exact .inl ⟨by omega, hw⟩
  · exact .inr (.inl ⟨hlane.1, hlane.2, hw.2, hw.1⟩)
  · exact .inr (.inr (.inl ⟨hcmd, hw⟩))
  all_goals refine .inr (.inr (.inr ⟨?_, not_not.mp hw⟩))
  · exact .inl hstatus
  · exact .inr (.inl houtlen)
  · exact .inr (.inr (.inl houtrem))
  · exact .inr (.inr (.inr (.inl hlastk)))
  · exact .inr (.inr (.inr (.inr herrcmd)))

theorem busWrite_of_no_entry {off : Offset} {width : Nat} (v : BitVec 64) (s : State)
    (h : mapEntry off width = none) : busWrite off width v s = .fault .inadmissibleAccess := by
  simp [busWrite, h]

theorem busRead_of_no_entry {off : Offset} {width : Nat} (s : State)
    (h : mapEntry off width = none) : busRead off width s = .fault .inadmissibleAccess := by
  simp [busRead, h]

theorem readValue_of_entry {off : Offset} {width : Nat} {e : MapEntry} (s : State)
    (h : mapEntry off width = some e) : readValue off width s = some (readEntry s e) := by
  simp [readValue, h]

/-- Settles O52: an access outside the table has no entry, since an entry puts it in the table. -/
theorem accessesOutsideTheMapAreStuck : Obligations.AccessesOutsideTheMapAreStuck := by
  intro s off width v hout
  have hnone : mapEntry off width = none :=
    Option.eq_none_iff_forall_ne_some.mpr fun _ he => hout (mapEntry_cases he)
  exact ⟨busWrite_of_no_entry v s hnone, busRead_of_no_entry s hnone⟩

/-- A distance inside the map, written as the offset itself. -/
theorem mapOffset_of_lt {a : Nat} (h : a < 0x1000) : mapOffset a = BitVec.ofNat 12 a := if_pos h

theorem mapEntry_ofNat_buf (j : Fin 200) : mapEntry (BitVec.ofNat 12 j.val) 1 = some (.buf j) := by
  rw [← mapOffset_of_lt (by omega)]
  exact mapEntry_buf j

theorem mapEntry_ofNat_lane (i : Fin 25) :
    mapEntry (BitVec.ofNat 12 (0x100 + 8 * i.val)) 8 = some (.lane i) := by
  rw [← mapOffset_of_lt (by omega)]
  exact mapEntry_lane i

/-- Settles O53: the buffer after the write is BUF with its byte `j` set. -/
theorem bufferAccessesReadAndWriteOneByte : Obligations.BufferAccessesReadAndWriteOneByte := by
  intro s j v hb
  have he := mapEntry_ofNat_buf j
  refine ⟨⟨s.buf.set j (v.extractLsb' 0 8), ?write, ?written, ?kept⟩, readValue_of_entry s he⟩
  case write =>
    rw [busWrite_of_entry v he hb, ← BitVec.setWidth_eq_extractLsb' (by decide)]
    rfl
  case written => exact Vector.getElem_set_self j.isLt
  case kept => exact fun _ hne => Vector.getElem_set_ne _ _ (Fin.val_ne_of_ne hne.symm)

/-- Settles O54: the lane state after the write is S with its lane `i` set. -/
theorem laneAccessesReadAndWriteOneLane : Obligations.LaneAccessesReadAndWriteOneLane := by
  intro s i v hb
  have he := mapEntry_ofNat_lane i
  refine ⟨⟨s.lanes.set i v, busWrite_of_entry v he hb, ?written, ?kept⟩, readValue_of_entry s he⟩
  case written => exact Vector.getElem_set_self i.isLt
  case kept => exact fun _ hne => Vector.getElem_set_ne _ _ (Fin.val_ne_of_ne hne.symm)

/-- R46: a write to one of the read-only registers is ignored. -/
theorem busWrite_readOnly {off : Offset} {s : State} (v : BitVec 64) (hb : s.busy = false)
    (h : off ∈ [(0x208 : Offset), 0x218, 0x220, 0x228]) : busWrite off 8 v s = .next s := by
  simp only [List.mem_cons, List.not_mem_nil, or_false] at h
  obtain rfl | rfl | rfl | rfl := h
  · exact busWrite_of_entry v mapEntry_status hb
  · exact busWrite_of_entry v mapEntry_outrem hb
  · exact busWrite_of_entry v mapEntry_lastk hb
  · exact busWrite_of_entry v mapEntry_errcmd hb

/-- Settles O55: each access by the map's entry for its register. -/
theorem registerAccessesFollowTheMap : Obligations.RegisterAccessesFollowTheMap := by
  intro s v hb
  exact ⟨readValue_status s, readValue_of_entry s mapEntry_outrem, readValue_of_entry s mapEntry_lastk,
    readValue_of_entry s mapEntry_errcmd, fun _ hoff => busWrite_readOnly v hb hoff,
    readValue_of_entry s mapEntry_outlen, busWrite_of_entry v mapEntry_outlen hb,
    readValue_of_entry s mapEntry_cmd⟩

end Sys2Proof.Machine
end

section
/-! R60, R63, R64: what the decode step answers, by the class of the opcode, and the rows of the opcode map
as the rows of the commands. -/

namespace Sys2Proof

/-- The opcodes of the rows without an operand (R63). -/
def bareOpcodes : List Nat := [0x01, 0x03, 0x04, 0x10, 0x11, 0x12, 0x13, 0x16, 0x20, 0x22]

/-- The opcodes of the rows with an operand (R63). -/
def operandOpcodes : List Nat := [0x02, 0x05, 0x14, 0x15, 0x21]

/-- The opcodes R64 lists as assigned to no command. -/
def UnassignedOpcode (op : Nat) : Prop :=
  op = 0x00 ∨ (0x06 ≤ op ∧ op ≤ 0x0F) ∨ (0x17 ≤ op ∧ op ≤ 0x1F) ∨ (0x23 ≤ op ∧ op ≤ 0xFF)

theorem unassignedOpcode_iff {op : Nat} (h : op < 256) :
    UnassignedOpcode op ↔ op ∉ bareOpcodes ∧ op ∉ operandOpcodes := by
  simp only [UnassignedOpcode, bareOpcodes, operandOpcodes, List.mem_cons, List.not_mem_nil, or_false]
  omega

theorem not_operandOpcode_of_bare : ∀ op ∈ bareOpcodes, op ∉ operandOpcodes := by decide

theorem opField_lt (w : CommandWord) : opField w < 256 := by rw [opField_eq]; omega

/-- Everything the decode step can do (R60): a command without an operand, a command with one, or no
command. -/
theorem decode_cases (w : CommandWord) :
    (opField w ∈ bareOpcodes ∧
      ∃ i, i.opcode = opField w ∧ i.operand? = none ∧ decode w = bareCommand w i) ∨
    (opField w ∈ operandOpcodes ∧
      ∃ f : Nat → Instr, (∀ a, (f a).opcode = opField w ∧ (f a).operand? = some a) ∧
        decode w = operandCommand w f) ∨
    (UnassignedOpcode (opField w) ∧ decode w = .error .unassignedOpcode) := by
  unfold decode
  split
  -- B2S, PAD, IOTA, ROUND and FINAL; then any other opcode; then the rows without an operand.
  case h_2 op | h_5 op | h_10 op | h_11 op | h_14 op =>
    rw [op]
    exact .inr (.inl ⟨by decide, _, fun _ => ⟨rfl, rfl⟩, rfl⟩)
  case h_16 =>
    refine .inr (.inr ⟨(unassignedOpcode_iff (opField_lt w)).mpr ?_, rfl⟩)
    simp_all [bareOpcodes, operandOpcodes]
  all_goals
    next op =>
    rw [op]
    exact .inl ⟨by decide, _, rfl, rfl, rfl⟩

/-- When a command without an operand is illegal (R64). -/
theorem bareCommand_error {w : CommandWord} {i : Instr} :
    (∃ e, bareCommand w i = .error e) ↔ rsvField w ≠ 0 ∨ aField w ≠ 0 := by
  unfold bareCommand; split
  · simp_all
  · split <;> simp_all

/-- When a command with an operand is illegal (R64). -/
theorem operandCommand_error {w : CommandWord} {f : Nat → Instr} :
    (∃ e, operandCommand w f = .error e) ↔ rsvField w ≠ 0 := by
  unfold operandCommand; split <;> simp_all

/-- R64 over the fields of the word. -/
theorem decode_error_iff (w : CommandWord) :
    (∃ e, decode w = .error e) ↔
      UnassignedOpcode (opField w) ∨ rsvField w ≠ 0 ∨ (opField w ∈ bareOpcodes ∧ aField w ≠ 0) := by
  have hassigned := unassignedOpcode_iff (opField_lt w)
  obtain ⟨hop, i, -, -, hd⟩ | ⟨hop, f, -, hd⟩ | ⟨hop, hd⟩ := decode_cases w
  · rw [hd, bareCommand_error]
    simp [hassigned, hop]
  · have hbare : opField w ∉ bareOpcodes := fun h => not_operandOpcode_of_bare _ h hop
    rw [hd, operandCommand_error]
    simp [hassigned, hop, hbare]
  · simp [hd, hop]

/-- The fields of a word that decodes are those of its command. -/
theorem fields_of_decode {w : CommandWord} {i : Instr} (h : decode w = .ok i) :
    rsvField w = 0 ∧ opField w = i.opcode ∧ aField w = i.operand?.getD 0 := by
  obtain ⟨-, j, hopcode, hoperand, hd⟩ | ⟨-, f, hf, hd⟩ | ⟨-, hd⟩ := decode_cases w
  · obtain ⟨hrsv, ha, rfl⟩ := bareCommand_ok.mp (hd ▸ h)
    simp [hrsv, ha, hopcode, hoperand]
  · obtain ⟨hrsv, rfl⟩ := operandCommand_ok.mp (hd ▸ h)
    obtain ⟨hopcode, hoperand⟩ := hf (aField w)
    simp [hrsv, hopcode, hoperand]
  · rw [hd] at h; cases h

/-- A word with a command's fields decodes to that command. -/
theorem decode_of_fields {w : CommandWord} {i : Instr} (hrsv : rsvField w = 0)
    (hop : opField w = i.opcode) (ha : aField w = i.operand?.getD 0) : decode w = .ok i := by
  cases i <;> simp_all [decode, Instr.opcode, Instr.operand?, bareCommand, operandCommand]

/-- The row of the opcode map that a command's opcode, mnemonic and operand call for. -/
def Instr.row (i : Instr) : OpcodeRow where
  mnemonic := i.mnemonic
  matchBits := BitVec.ofNat 32 i.opcode
  mask := if i.operand?.isSome then 0xFFFF00FF else 0xFFFFFFFF
  hasOperand := i.operand?.isSome

/-- One command per row of the opcode map, with the operand `a` where the row has one. -/
def commandsWith (a : Nat) : List Instr :=
  [.init, .b2s a, .s2b, .xorrate, .pad a, .theta, .rho, .pi, .chi, .iota a, .round a, .permute, .absorb,
    .final a, .squeeze]

theorem opcodeTable_eq (a : Nat) : opcodeTable = (commandsWith a).map Instr.row := rfl

theorem mem_commandsWith (i : Instr) : i ∈ commandsWith (i.operand?.getD 0) := by
  cases i <;> simp [commandsWith, Instr.operand?]

theorem operand_of_mem_commandsWith (a : Nat) : ∀ i ∈ commandsWith a, i.operand?.getD a = a := by
  simp [commandsWith, Instr.operand?]

theorem row_mem (i : Instr) : i.row ∈ opcodeTable := by
  rw [opcodeTable_eq (i.operand?.getD 0)]
  exact List.mem_map_of_mem (mem_commandsWith i)

/-- The mnemonic tells the rows apart. -/
theorem row_eq_of_mnemonic {i : Instr} {row : OpcodeRow} (hrow : row ∈ opcodeTable)
    (h : i.mnemonic = row.mnemonic) : i.row = row :=
  have hnodup : (opcodeTable.map OpcodeRow.mnemonic).Nodup := by decide
  List.inj_on_of_nodup_map hnodup (row_mem i) hrow h

/-- A word is its three fields, RSV above A above OP (R61). -/
theorem fields_append (w : CommandWord) :
    w.extractLsb' 16 16 ++ w.extractLsb' 8 8 ++ w.extractLsb' 0 8 = w :=
  calc w.extractLsb' 16 16 ++ w.extractLsb' 8 8 ++ w.extractLsb' 0 8
      = w.extractLsb' 8 24 ++ w.extractLsb' 0 8 := by
        rw [BitVec.extractLsb'_append_extractLsb'_eq_extractLsb' (by decide)]
    _ = w := BitVec.extractLsb'_append_extractLsb'

theorem toNat_eq_fields (w : CommandWord) :
    w.toNat = 65536 * rsvField w + 256 * aField w + opField w := by
  rw [rsvField_eq, aField_eq, opField_eq]; omega

/-- The mask of a row with an operand clears field A and keeps the others. -/
theorem and_operandMask (w : CommandWord) :
    w &&& 0xFFFF00FF = w.extractLsb' 16 16 ++ 0#8 ++ w.extractLsb' 0 8 := by
  have hmask : (0xFFFF00FF : CommandWord) = BitVec.allOnes 16 ++ 0#8 ++ BitVec.allOnes 8 := by decide
  calc w &&& 0xFFFF00FF
      = (w.extractLsb' 16 16 ++ w.extractLsb' 8 8 ++ w.extractLsb' 0 8) &&&
          (BitVec.allOnes 16 ++ 0#8 ++ BitVec.allOnes 8) := by rw [fields_append, hmask]
    _ = w.extractLsb' 16 16 ++ 0#8 ++ w.extractLsb' 0 8 := by
      simp only [BitVec.and_append, BitVec.and_allOnes, BitVec.and_zero]

theorem and_operandMask_toNat (w : CommandWord) :
    (w &&& 0xFFFF00FF).toNat = 65536 * rsvField w + opField w := by
  have hop : (w.extractLsb' 0 8).toNat < 2 ^ 8 := BitVec.isLt _
  rw [and_operandMask, BitVec.toNat_append, BitVec.toNat_append, ← Nat.shiftLeft_add_eq_or_of_lt hop,
    BitVec.toNat_zero, Nat.or_zero, Nat.shiftLeft_eq, Nat.shiftLeft_eq, rsvField, opField]
  omega

/-- R63: a word matches a command's row exactly when its OP is the command's opcode, its RSV is zero,
and its A is zero where the command has no operand. -/
theorem and_mask_row_iff (w : CommandWord) (i : Instr) :
    w &&& i.row.mask = i.row.matchBits ↔
      rsvField w = 0 ∧ opField w = i.opcode ∧ (i.operand? = none → aField w = 0) := by
  have hopcode := opcode_lt i
  have hop := opField_lt w
  have hmatch : i.row.matchBits.toNat = i.opcode := Nat.mod_eq_of_lt (by omega)
  rw [BitVec.toNat_eq, hmatch]
  cases hi : i.operand? with
  | none =>
    have hmask : i.row.mask = BitVec.allOnes 32 := by simp [Instr.row, hi]
    rw [hmask, BitVec.and_allOnes, toNat_eq_fields]
    simp only [true_implies]
    omega
  | some a =>
    have hmask : i.row.mask = 0xFFFF00FF := by simp [Instr.row, hi]
    rw [hmask, and_operandMask_toNat]
    simp only [reduceCtorEq, false_implies, and_true]
    omega

/-- R63: the word of a command matches the command's row. -/
theorem matches_row_of_decode {w : CommandWord} {i : Instr} (h : decode w = .ok i) :
    w &&& i.row.mask = i.row.matchBits := by
  obtain ⟨hrsv, hop, ha⟩ := fields_of_decode h
  exact (and_mask_row_iff w i).mpr ⟨hrsv, hop, fun hnone => by rw [ha, hnone]; rfl⟩

/-- R63: a word that matches a row is a command of that row, with the operand in its field A. -/
theorem decode_of_matches {w : CommandWord} {row : OpcodeRow} (hrow : row ∈ opcodeTable)
    (h : w &&& row.mask = row.matchBits) : ∃ i, decode w = .ok i ∧ i.row = row := by
  rw [opcodeTable_eq (aField w)] at hrow
  obtain ⟨i, hi, rfl⟩ := List.mem_map.mp hrow
  obtain ⟨hrsv, hop, hbare⟩ := (and_mask_row_iff w i).mp h
  refine ⟨i, decode_of_fields hrsv hop ?_, rfl⟩
  cases hoperand : i.operand? with
  | none => exact hbare hoperand
  | some a =>
    have ha := operand_of_mem_commandsWith _ i hi
    rw [hoperand] at ha
    exact ha.symm

theorem encode_of_decode {w : CommandWord} {i : Instr} (h : decode w = .ok i) : encode i = w := by
  obtain ⟨hrsv, hop, ha⟩ := fields_of_decode h
  rw [encode, ← ha, ← hop, word_of_fields hrsv]

theorem row_matchBits_and_opMask (i : Instr) : i.row.matchBits &&& 0xFF = BitVec.ofNat 32 i.opcode := by
  cases i <;> simp [Instr.row, Instr.opcode]

/-- Settles O3: the words that match a row are the words that decode to its commands, and a word
decodes to one command at most. -/
theorem wordIsTheCommandOfTheRowItMatches : Obligations.WordIsTheCommandOfTheRowItMatches := by
  refine ⟨fun w row hrow => ⟨fun hmatch => ?command, ?row⟩, fun w i hd => ?decodes,
    fun w row hrow row' hrow' hmatch hmatch' => ?unique, by decide⟩
  case command =>
    obtain ⟨i, hd, rfl⟩ := decode_of_matches hrow hmatch
    exact ⟨i, hd, rfl, rfl⟩
  case row =>
    rintro ⟨i, hd, hmnemonic, -⟩
    rw [← row_eq_of_mnemonic hrow hmnemonic]
    exact matches_row_of_decode hd
  case decodes =>
    refine ⟨i.row, row_mem i, matches_row_of_decode hd, rfl, ?_⟩
    rw [row_matchBits_and_opMask]
    exact (encode_of_decode hd).symm
  case unique =>
    obtain ⟨i, hd, rfl⟩ := decode_of_matches hrow hmatch
    obtain ⟨i', hd', rfl⟩ := decode_of_matches hrow' hmatch'
    obtain rfl : i = i' := Except.ok.inj (hd.symm.trans hd')
    rfl

end Sys2Proof
end

section
/-! R64 and R181: what the issue of a word that is no command does. -/

namespace Sys2Proof.Machine

theorem issue_of_decode_error {s : State} {w : CommandWord} {e : DecodeError} (hphase : s.phase ≠ .fault)
    (hd : decode w = .error e) : issue w s = .next (s.raiseFault .illegalCommand w) := by
  rw [issue_eq, if_neg hphase, hd]

/-- R185: the STATUS word of fault entry, ERR above BUSY = 0 and PH = 3. -/
theorem raiseFault_statusWord (s : State) (code : ErrorCode) (w : CommandWord) :
    (s.raiseFault code w).statusWord = 0#53 ++ code.code ++ 0#5 ++ 0#1 ++ 3#2 := rfl

/-- Settles O4: the illegal words by the class of their opcode, and the fault by the issue of a word. -/
theorem illegalWordsRaiseIllegalCommand : Obligations.IllegalWordsRaiseIllegalCommand := by
  refine ⟨fun w => ?illegal, fun _ _ _ => issue_of_decode_error, fun s w => ?status, ⟨_, rfl⟩⟩
  case illegal =>
    have hrsv : w.extractLsb' 16 16 ≠ 0 ↔ rsvField w ≠ 0 := BitVec.toNat_ne_iff_ne.symm
    have ha : w.extractLsb' 8 8 ≠ 0 ↔ aField w ≠ 0 := BitVec.toNat_ne_iff_ne.symm
    rw [hrsv, ha]
    exact decode_error_iff w
  case status => rw [raiseFault_statusWord]; decide

end Sys2Proof.Machine
end

section
/-! R80 to R85: the lanes B2S loads, and the lanes a rate block enters. -/

namespace Sys2Proof.Machine

theorem exec_b2s_of_legal {s : State} {L : Nat} (hphase : s.phase ≠ .fault) (hL : L ≤ 200) :
    exec (.b2s L) s = .next { s with lanes := bytesToState (s.bufHead L) } := by
  rw [exec_of_ne hphase, commandEffect, if_pos hL]

/-- R80: byte `k` of lane `i` is byte `8i + k` of the sequence, or zero past its end. -/
theorem laneByte_bytesToState (b : List Byte) (i : Fin 25) (k : Fin 8) :
    laneByte (bytesToState b)[i] k.val = byteOrZero b (8 * i.val + k.val) := by
  rw [Fin.getElem_fin, bytesToState_get b i.val i.isLt, laneByte_packLane b i.val k.val k.isLt]

theorem byteOrZero_bufHead (s : State) (L : Nat) (j : Fin 200) :
    byteOrZero (s.bufHead L) j.val = if j.val < L then s.bufByte j else 0 := by
  rw [byteOrZero, bufHead_getD]
  by_cases hj : j.val < L
  · rw [dif_pos ⟨hj, j.isLt⟩, if_pos hj]; rfl
  · rw [dif_neg (fun h => hj h.1), if_neg hj]

/-- Settles O19: the lanes are those of `BUF[0..L-1]`, and their bytes those of the sequence. -/
theorem b2sLoadsTheLanesLittleEndian : Obligations.B2sLoadsTheLanesLittleEndian := by
  intro s L hphase hL
  refine ⟨bytesToState (s.bufHead L), exec_b2s_of_legal hphase hL, fun i k => ?_⟩
  exact (laneByte_bytesToState _ i k).trans (byteOrZero_bufHead s L ⟨8 * i.val + k.val, by omega⟩)

/-- R81: a 168-byte block ends where lane 21 begins. -/
theorem bytesToState_block_capacity (blk : Block) (i : Fin 25) (hi : 21 ≤ i.val) :
    (bytesToState blk.toList)[i] = 0 := by
  have hend : blk.toList.length ≤ 8 * i.val := by rw [Vector.length_toList]; omega
  exact (bytesToState_get _ i.val i.isLt).trans (packLane_eq_zero _ _ hend)

theorem absorbXor_rate (A : Lanes) (blk : Block) (i : Fin 25) (hi : i.val < 21) :
    (absorbXor A blk)[i] = A[i] ^^^ (bytesToState blk.toList)[i] := by
  simp only [Fin.getElem_fin, absorbXor_get _ _ _ i.isLt, bytesToState_get _ _ i.isLt, if_pos hi]

theorem absorbXor_capacity (A : Lanes) (blk : Block) (i : Fin 25) (hi : 21 ≤ i.val) :
    (absorbXor A blk)[i] = A[i] := by
  simp only [Fin.getElem_fin, absorbXor_get _ _ _ i.isLt, if_neg (Nat.not_lt.mpr hi)]

/-- R84: the two cases are one XOR, since the lanes that `absorbXor` keeps are zero in the block. -/
theorem absorbXor_eq_xor (A : Lanes) (blk : Block) (i : Fin 25) :
    (absorbXor A blk)[i] = A[i] ^^^ (bytesToState blk.toList)[i] := by
  obtain hrate | hcap := Nat.lt_or_ge i.val 21
  · exact absorbXor_rate A blk i hrate
  · rw [absorbXor_capacity A blk i hcap, bytesToState_block_capacity blk i hcap]
    exact BitVec.xor_zero.symm

/-- Settles O22: the lanes of the rate, the lanes past it, and both as one XOR. -/
theorem absorbXorIsTheXorOfAllLanes : Obligations.AbsorbXorIsTheXorOfAllLanes := by
  intro A blk i
  exact ⟨absorbXor_rate A blk i,
    fun hi => ⟨bytesToState_block_capacity blk i hi, absorbXor_capacity A blk i hi⟩,
    absorbXor_eq_xor A blk i⟩

end Sys2Proof.Machine
end

section
/-! R105 to R110: the round operations through their commands, and the round as their composition. -/

namespace Sys2Proof.Machine

/-- Settles O27: C and D are the model's column parities and their effect, each read entry by entry. -/
theorem thetaMixesTheColumnParities : Obligations.ThetaMixesTheColumnParities := by
  intro s hphase
  refine ⟨theta s.lanes, exec_of_ne hphase .theta, columnParity s.lanes,
    thetaEffect (columnParity s.lanes), fun x => ?parity, fun x => ?effect, fun i => ?lane⟩
  case parity => exact columnParity_get s.lanes x.val x.isLt
  case effect =>
    rw [← rotl64_eq_rotateLeft _ 1 (by decide)]
    exact thetaEffect_get _ x.val x.isLt
  case lane => exact theta_get s.lanes i.val i.isLt

/-- Settles O28: an offset of the table is below 64, so the rotation of R6 is the one of the word. -/
theorem rhoRotatesEachLaneByItsOffset : Obligations.RhoRotatesEachLaneByItsOffset := by
  intro s hphase
  refine ⟨rho s.lanes, exec_of_ne hphase .rho, fun i => ?_⟩
  rw [← rotl64_eq_rotateLeft _ _ RHO[i].isLt]
  exact rho_get s.lanes i.val i.isLt

/-- Settles O29: the gather direction lane by lane. -/
theorem piGathersTheLanes : Obligations.PiGathersTheLanes := by
  intro s hphase
  exact ⟨pi s.lanes, exec_of_ne hphase .pi, fun i => pi_get s.lanes i.val i.isLt⟩

/-- R108 at row `r` and column `x`. -/
theorem chi_get_row_column (A : Lanes) (r x : Fin 5) :
    (chi A)[5 * r.val + x.val]'(by omega) =
      A[5 * r.val + x.val]'(by omega) ^^^
        (~~~(A[5 * r.val + (x.val + 1) % 5]'(by omega)) &&&
          A[5 * r.val + (x.val + 2) % 5]'(by omega)) := by
  have hrow : (5 * r.val + x.val) / 5 = r.val := by omega
  have hcolumn : (5 * r.val + x.val) % 5 = x.val := by omega
  simp only [chi_get _ _ (show 5 * r.val + x.val < 25 by omega), hrow, hcolumn]

/-- Settles O30: the lanes of `chi`, numbered by row and column. -/
theorem chiCombinesTheLanesOfEachRow : Obligations.ChiCombinesTheLanesOfEachRow := by
  intro s hphase
  exact ⟨chi s.lanes, exec_of_ne hphase .chi, chi_get_row_column s.lanes⟩

theorem commandEffect_iota (s : State) (ir : Fin 24) :
    commandEffect (.iota ir.val) s = { s with lanes := iota s.lanes ir } := dif_pos ir.isLt

/-- Settles O31: lane 0 takes the round constant, and the lanes past it stay. -/
theorem iotaXorsTheRoundConstantIntoLaneZero : Obligations.IotaXorsTheRoundConstantIntoLaneZero := by
  intro s ir hphase
  refine ⟨iota s.lanes ir, ?effect, iota_get_zero s.lanes ir, fun i hi => ?kept⟩
  case effect => rw [exec_of_ne hphase, commandEffect_iota]
  case kept => exact iota_get_other s.lanes ir i.val i.isLt (Fin.val_ne_of_ne hi)

theorem commandEffect_round (s : State) (ir : Fin 24) :
    commandEffect (.round ir.val) s = { s with lanes := round s.lanes ir } := dif_pos ir.isLt

/-- A sequence of commands goes on from the effect of its first command. -/
theorem execAll_cons_of_ne {i : Instr} {is : List Instr} {s : State} (hphase : s.phase ≠ .fault) :
    execAll (i :: is) s = execAll is (commandEffect i s) := by
  rw [execAll, exec_of_ne hphase]

/-- R66: each command of ROUNDX keeps the phase and applies its operation to the lanes the command
before it left. -/
theorem execAll_roundx {s : State} (hphase : s.phase ≠ .fault) (ir : Fin 24) :
    execAll (roundx ir.val) s =
      .next { s with lanes := iota (chi (pi (rho (theta s.lanes)))) ir } :=
  calc execAll [.theta, .rho, .pi, .chi, .iota ir.val] s
    _ = execAll [.rho, .pi, .chi, .iota ir.val] { s with lanes := theta s.lanes } :=
      execAll_cons_of_ne hphase
    _ = execAll [.pi, .chi, .iota ir.val] { s with lanes := rho (theta s.lanes) } :=
      execAll_cons_of_ne hphase
    _ = execAll [.chi, .iota ir.val] { s with lanes := pi (rho (theta s.lanes)) } :=
      execAll_cons_of_ne hphase
    _ = execAll [.iota ir.val] { s with lanes := chi (pi (rho (theta s.lanes))) } :=
      execAll_cons_of_ne hphase
    _ = .next { s with lanes := iota (chi (pi (rho (theta s.lanes)))) ir } := by
      rw [execAll_cons_of_ne, commandEffect_iota, execAll]
      exact hphase

/-- Settles O32: the command's lanes are those of `round`, and the five commands leave the same. -/
theorem roundIsTheFiveOperationsInOrder : Obligations.RoundIsTheFiveOperationsInOrder := by
  intro s ir hphase
  have hround : exec (.round ir.val) s = .next { s with lanes := round s.lanes ir } := by
    rw [exec_of_ne hphase, commandEffect_round]
  exact ⟨hround, (execAll_roundx hphase ir).trans hround.symm⟩

end Sys2Proof.Machine
end

section
/-! R140 and R141: the padded block read byte by byte, its last byte included. -/

namespace Sys2Proof.Machine

/-- R141: past a tail of 167 bytes the suffix and the end marker meet in the last byte. -/
theorem pad_last_of_length {rem : List Byte} (hlen : rem.length = 167) : (pad rem)[167] = 0x9F := by
  have hzero : rem.getD 167 0 = 0 := List.getD_eq_default _ _ hlen.le
  rw [pad_get, hzero, hlen]
  decide

/-- Settles O38: the block byte by byte, and its last byte after the longest tail. -/
theorem padXorsTheSuffixAndTheEndMarker : Obligations.PadXorsTheSuffixAndTheEndMarker := by
  intro rem _
  refine ⟨fun j => ?byte, pad_last_of_length⟩
  case byte =>
    rw [← List.getD_getElem?, ← List.getD_eq_getElem?_getD]
    exact pad_get rem j.val j.isLt

end Sys2Proof.Machine
end

section
/-! R154: the phase and the error code each command leaves, outside the fault state. -/

namespace Sys2Proof.Machine

/-- A command without a row of its own in the transition table keeps the phase, or faults. -/
theorem commandEffect_phase_kept_or_fault {i : Instr} (s : State) (hinit : i ≠ .init)
    (habsorb : i ≠ .absorb) (hfinal : ∀ r, i ≠ .final r) (hsqueeze : i ≠ .squeeze) :
    (commandEffect i s).phase = s.phase ∨
      ((commandEffect i s).phase = .fault ∧ (commandEffect i s).err ≠ none) := by
  cases i with
  | init => exact absurd rfl hinit
  | absorb => exact absurd rfl habsorb
  | final r => exact absurd rfl (hfinal r)
  | squeeze => exact absurd rfl hsqueeze
  | s2b | xorrate | theta | rho | pi | chi | permute => exact .inl rfl
  | b2s a | pad a | iota a | round a => rw [commandEffect]; split <;> simp

theorem commandEffect_absorb_phase {s : State} (hphase : s.phase = .absorb) :
    (commandEffect .absorb s).phase = .absorb := by
  rw [commandEffect, if_pos hphase]; exact hphase

theorem commandEffect_absorb_elsewhere {s : State} (hphase : s.phase ≠ .absorb) :
    commandEffect .absorb s = s.raiseFault .phaseError (encode .absorb) := if_neg hphase

theorem commandEffect_final_phase {s : State} {r : Nat} (hphase : s.phase = .absorb)
    (hn : 0 ≤ sint64 s.outlen) (hr : r < 168) :
    (commandEffect (.final r) s).phase = if 0 < sint64 s.outlen then .squeeze else .idle := by
  rw [commandEffect, if_neg (not_not.mpr hphase), if_neg (Int.not_lt.mpr hn), if_pos hr]

/-- R187: past the check of the phase, FINAL faults on the length or else on the tail. -/
theorem commandEffect_final_invalid {s : State} {r : Nat} (hphase : s.phase = .absorb)
    (hinvalid : ¬(0 ≤ sint64 s.outlen ∧ r < 168)) : (commandEffect (.final r) s).phase = .fault := by
  rw [commandEffect, if_neg (not_not.mpr hphase)]
  by_cases hn : sint64 s.outlen < 0
  · rw [if_pos hn]; rfl
  · have hr : ¬r < 168 := fun hr => hinvalid ⟨Int.not_lt.mp hn, hr⟩
    rw [if_neg hn, if_neg hr]; rfl

theorem commandEffect_final_elsewhere {s : State} (r : Nat) (hphase : s.phase ≠ .absorb) :
    commandEffect (.final r) s = s.raiseFault .phaseError (encode (.final r)) := if_pos hphase

/-- R165: bytes are left to emit exactly when more than a block was missing. -/
theorem commandEffect_squeeze_phase {s : State} (hphase : s.phase = .squeeze) :
    (commandEffect .squeeze s).phase =
      if 0 < (commandEffect .squeeze s).outrem.toNat then .squeeze else .idle := by
  rw [commandEffect, if_neg (not_not.mpr hphase)]
  by_cases hmore : 168 < s.outrem.toNat
  · have hleft : 0 < (s.outrem - 168).toNat := by bv_omega
    rw [if_pos hmore, if_pos hleft]; exact hphase
  · rw [if_neg hmore]; rfl

theorem commandEffect_squeeze_elsewhere {s : State} (hphase : s.phase ≠ .squeeze) :
    commandEffect .squeeze s = s.raiseFault .phaseError (encode .squeeze) := if_pos hphase

/-- Settles O18: in the fault state the command is ignored, and elsewhere each row of the table, in its
order, is the phase that the command's effect leaves. -/
theorem phaseFollowsTheTransitionTable : Obligations.PhaseFollowsTheTransitionTable := by
  intro i s t h
  obtain ⟨hfault, rfl⟩ | ⟨hphase, rfl⟩ := exec_cases h
  · simp only [hfault]
  · split
    case h_1 hfault => exact absurd hfault hphase
    case h_2 => rfl
    case h_3 habsorb => exact commandEffect_absorb_phase habsorb
    case h_4 hother => rw [commandEffect_absorb_elsewhere hother]; exact ⟨rfl, rfl⟩
    case h_5 habsorb =>
      split
      case isTrue hvalid => exact commandEffect_final_phase habsorb hvalid.1 hvalid.2
      case isFalse hinvalid => exact commandEffect_final_invalid habsorb hinvalid
    case h_6 hother => rw [commandEffect_final_elsewhere _ hother]; exact ⟨rfl, rfl⟩
    case h_7 hsqueeze => exact commandEffect_squeeze_phase hsqueeze
    case h_8 hother => rw [commandEffect_squeeze_elsewhere hother]; exact ⟨rfl, rfl⟩
    case h_9 hinit habsorb hfinal hsqueeze _ _ _ _ =>
      exact commandEffect_phase_kept_or_fault s hinit habsorb hfinal hsqueeze

end Sys2Proof.Machine
end

section
/-! R180 to R187: which fault the issue of a word raises, and what fault entry writes. -/

namespace Sys2Proof.Machine

theorem issue_of_decode {s : State} {w : CommandWord} {i : Instr} (hphase : s.phase ≠ .fault)
    (hd : decode w = .ok i) : issue w s = .next (commandEffect i s) := by
  rw [issue_eq, if_neg hphase, hd]

/-- R185: the word a faulting command records, `encode i` in the model, is the word that was issued. -/
theorem issue_raises {s : State} {w : CommandWord} {i : Instr} {code : ErrorCode} (hphase : s.phase ≠ .fault)
    (hd : decode w = .ok i) (heffect : commandEffect i s = s.raiseFault code (encode i)) :
    issue w s = .next (s.raiseFault code w) := by
  rw [issue_of_decode hphase hd, heffect, encode_of_decode hd]

theorem commandEffect_b2s_beyond {L : Nat} (s : State) (hL : 200 < L) :
    commandEffect (.b2s L) s = s.raiseFault .operandRange (encode (.b2s L)) := if_neg (Nat.not_le.mpr hL)

theorem commandEffect_iota_beyond {ir : Nat} (s : State) (hir : 23 < ir) :
    commandEffect (.iota ir) s = s.raiseFault .operandRange (encode (.iota ir)) := dif_neg (Nat.not_lt.mpr hir)

theorem commandEffect_round_beyond {ir : Nat} (s : State) (hir : 23 < ir) :
    commandEffect (.round ir) s = s.raiseFault .operandRange (encode (.round ir)) := dif_neg (Nat.not_lt.mpr hir)

theorem commandEffect_pad_long_tail {r : Nat} (s : State) (hr : 168 ≤ r) :
    commandEffect (.pad r) s = s.raiseFault .padPrecondition (encode (.pad r)) := if_neg (Nat.not_lt.mpr hr)

/-- R187: FINAL checks the length before the tail. -/
theorem commandEffect_final_negative {s : State} (r : Nat) (hphase : s.phase = .absorb)
    (hn : sint64 s.outlen < 0) :
    commandEffect (.final r) s = s.raiseFault .invalidArgument (encode (.final r)) := by
  rw [commandEffect, if_neg (not_not.mpr hphase), if_pos hn]

theorem commandEffect_final_long_tail {s : State} {r : Nat} (hphase : s.phase = .absorb)
    (hn : 0 ≤ sint64 s.outlen) (hr : 168 ≤ r) :
    commandEffect (.final r) s = s.raiseFault .padPrecondition (encode (.final r)) := by
  rw [commandEffect, if_neg (not_not.mpr hphase), if_neg (Int.not_lt.mpr hn), if_neg (Nat.not_lt.mpr hr)]

theorem sint64_nonneg_of_lt {v : BitVec 64} (h : v.toNat < 2 ^ 63) : 0 ≤ sint64 v := by
  rw [sint64_of_lt h]; exact Int.natCast_nonneg _

theorem commandEffect_final_phase_ne_fault {s : State} {r : Nat} (hphase : s.phase = .absorb)
    (hn : 0 ≤ sint64 s.outlen) (hr : r < 168) : (commandEffect (.final r) s).phase ≠ .fault := by
  rw [commandEffect_final_phase hphase hn hr]
  split <;> decide

theorem commandEffect_squeeze_phase_ne_fault {s : State} (hphase : s.phase = .squeeze) :
    (commandEffect .squeeze s).phase ≠ .fault := by
  rw [commandEffect_squeeze_phase hphase]
  split <;> decide

/-- A command that is not ignored either leaves the core outside the fault state or is fault entry as a whole:
each check stands before the first write. -/
theorem commandEffect_phase_ne_fault_or_raises (i : Instr) {s : State} (hphase : s.phase ≠ .fault) :
    (commandEffect i s).phase ≠ .fault ∨ ∃ code, commandEffect i s = s.raiseFault code (encode i) := by
  cases i with
  | init => exact .inl nofun
  | s2b | xorrate | theta | rho | pi | chi | permute => exact .inl hphase
  | b2s a | pad a | iota a | round a =>
    rw [commandEffect]
    split
    · exact .inl hphase
    · exact .inr ⟨_, rfl⟩
  | absorb =>
    by_cases habsorb : s.phase = .absorb
    · left; rw [commandEffect_absorb_phase habsorb]; decide
    · exact .inr ⟨_, commandEffect_absorb_elsewhere habsorb⟩
  | final r =>
    by_cases habsorb : s.phase = .absorb
    · rcases Int.lt_or_le (sint64 s.outlen) 0 with hn | hn
      · exact .inr ⟨_, commandEffect_final_negative r habsorb hn⟩
      · rcases Nat.lt_or_ge r 168 with hr | hr
        · exact .inl (commandEffect_final_phase_ne_fault habsorb hn hr)
        · exact .inr ⟨_, commandEffect_final_long_tail habsorb hn hr⟩
    · exact .inr ⟨_, commandEffect_final_elsewhere r habsorb⟩
  | squeeze =>
    by_cases hsqueeze : s.phase = .squeeze
    · exact .inl (commandEffect_squeeze_phase_ne_fault hsqueeze)
    · exact .inr ⟨_, commandEffect_squeeze_elsewhere hsqueeze⟩

/-- Settles O13: a word that does not decode raises IllegalCommand, and a command that ends in the fault state
is fault entry as a whole. -/
theorem faultEntryIsPrecise : Obligations.FaultEntryIsPrecise := by
  intro w s t hphase hissue hfault
  suffices h : ∃ code, issue w s = .next (s.raiseFault code w) by
    obtain ⟨code, hraise⟩ := h
    exact ⟨code, Host.Outcome.next.inj (hissue.symm.trans hraise)⟩
  cases hd : decode w with
  | error e => exact ⟨_, issue_of_decode_error hphase hd⟩
  | ok i =>
    have ht : t = commandEffect i s := Host.Outcome.next.inj (hissue.symm.trans (issue_of_decode hphase hd))
    rcases commandEffect_phase_ne_fault_or_raises i hphase with hne | ⟨code, heffect⟩
    · exact absurd (ht ▸ hfault) hne
    · exact ⟨code, issue_raises hphase hd heffect⟩

/-- Settles O14: each range check fails before the command writes anything, and the code is a field of STATUS. -/
theorem operandRangeIsRaisedBeyondTheTables : Obligations.OperandRangeIsRaisedBeyondTheTables := by
  intro s w hphase
  refine ⟨fun L hL hd => ?b2s, fun ir hir hd => ?iota, fun ir hir hd => ?round, ?status⟩
  case b2s => exact issue_raises hphase hd (commandEffect_b2s_beyond s hL)
  case iota => exact issue_raises hphase hd (commandEffect_iota_beyond s hir)
  case round => exact issue_raises hphase hd (commandEffect_round_beyond s hir)
  case status => rw [raiseFault_statusWord]; decide

/-- Settles O15: the phase is the first check of each sponge command. -/
theorem phaseErrorIsRaisedOutOfOrder : Obligations.PhaseErrorIsRaisedOutOfOrder := by
  intro s w hphase
  refine ⟨fun hother hd => ?absorb, fun r hother hd => ?final, fun hother hd => ?squeeze, ?status⟩
  case absorb => exact issue_raises hphase hd (commandEffect_absorb_elsewhere hother)
  case final => exact issue_raises hphase hd (commandEffect_final_elsewhere r hother)
  case squeeze => exact issue_raises hphase hd (commandEffect_squeeze_elsewhere hother)
  case status => rw [raiseFault_statusWord]; decide

theorem phase_ne_fault_of_absorb {s : State} (h : s.phase = .absorb) : s.phase ≠ .fault := by rw [h]; decide

/-- Settles O16: the lengths from 2^63 on are those whose signed reading is negative, and with any other length
FINAL goes on to SQUEEZE or IDLE. -/
theorem invalidArgumentIsRaisedOnNegativeLength : Obligations.InvalidArgumentIsRaisedOnNegativeLength := by
  intro s w r habsorb hd
  have hphase := phase_ne_fault_of_absorb habsorb
  refine ⟨fun hn => ?negative, fun hn hr => ?valid, ?status⟩
  case negative =>
    exact issue_raises hphase hd (commandEffect_final_negative r habsorb ((sint64_neg_iff _).mpr hn))
  case valid =>
    exact ⟨_, issue_of_decode hphase hd,
      commandEffect_final_phase_ne_fault habsorb (sint64_nonneg_of_lt hn) hr⟩
  case status => rw [raiseFault_statusWord]; decide

/-- Settles O17: the tail is the one check of PAD and the last check of FINAL. -/
theorem padPreconditionIsRaisedOnLongTail : Obligations.PadPreconditionIsRaisedOnLongTail := by
  intro s w r hr
  refine ⟨fun hphase hd => ?pad, fun habsorb hn hd => ?final, ?status⟩
  case pad => exact issue_raises hphase hd (commandEffect_pad_long_tail s hr)
  case final =>
    exact issue_raises (phase_ne_fault_of_absorb habsorb) hd
      (commandEffect_final_long_tail habsorb (sint64_nonneg_of_lt hn) hr)
  case status => rw [raiseFault_statusWord]; decide

end Sys2Proof.Machine
end

section
/-! R200: the state a reset leaves, read through the accessors. -/

namespace Sys2Proof.Machine

theorem step_reset {s : State} {rest : List HostOp} (hp : s.pending = .reset :: rest) :
    step s = .next (s.setPending rest).applyReset := by
  simp only [step, hp, hostAction]

theorem applyReset_lane (s : State) (i : Fin 25) : s.applyReset.lane i = 0 := by
  rw [State.lane, applyReset_lanes]
  exact Vector.getElem_replicate i.isLt

theorem applyReset_bufByte (s : State) (j : Fin 200) : s.applyReset.bufByte j = 0 := by
  rw [State.bufByte, applyReset_buf]
  exact Vector.getElem_replicate j.isLt

/-- STATUS is made of PH, BUSY and ERR (R25), and reset gives each of them the value 0. -/
theorem applyReset_statusWord (s : State) : s.applyReset.statusWord = 0 := by
  rw [State.statusWord, applyReset_phase, applyReset_busy, applyReset_err]
  decide

/-- Settles O10: the step is reset itself, and reset takes each piece of the state to its reset value. -/
theorem resetSetsEveryPieceOfState : Obligations.ResetSetsEveryPieceOfState := by
  intro s rest hp
  exact ⟨_, step_reset hp, applyReset_lane _, applyReset_bufByte _, applyReset_phase _, applyReset_busy _,
    applyReset_err _, applyReset_statusWord _, applyReset_outlen _, applyReset_outrem _, applyReset_lastk _,
    applyReset_errcmd _⟩

end Sys2Proof.Machine
end

section
/-! R60 to R63: encoding and decoding are inverse on the well-formed commands. -/

namespace Sys2Proof

theorem decode_encode {i : Instr} (h : i.wf = true) : decode (encode i) = .ok i := by
  obtain ⟨hop, ha, hrsv⟩ := Laws.EncodeFields.of_toNat i h
  exact decode_of_fields hrsv hop ha

/-- R62: the operand of a command that a word decodes to is the word's field A, which has 8 bits. -/
theorem wf_of_decode {w : CommandWord} {i : Instr} (h : decode w = .ok i) : i.wf = true := by
  obtain ⟨-, -, ha⟩ := fields_of_decode h
  have hlt := aField_lt w
  rw [Instr.wf]
  cases hi : i.operand? with
  | none => rfl
  | some a =>
    rw [hi, Option.getD_some] at ha
    exact decide_eq_true (ha ▸ hlt)

/-- Settles O1: the fields of the encoded word are the command's, and they decide what it decodes to. -/
theorem decodeOfEncodeIsTheCommand : Obligations.DecodeOfEncodeIsTheCommand := fun _ => decode_encode

/-- Settles O2: a word that decodes has no bit outside the fields of its command. -/
theorem encodeOfDecodeIsTheWord : Obligations.EncodeOfDecodeIsTheWord :=
  fun _ _ h => ⟨wf_of_decode h, encode_of_decode h⟩

/-- Settles O5: the fields of each word are those of its command. -/
theorem wordsWrittenFromTheFormatDecode : Obligations.WordsWrittenFromTheFormatDecode :=
  ⟨rfl, rfl, rfl, rfl, rfl, rfl⟩

end Sys2Proof
end

section
/-! R186, R27 to R35: which steps touch the core's status registers, and the invariant that they keep. -/

namespace Sys2Proof.Machine

/-- `t` has the status registers of `s`: those of which the invariant of the core speaks. -/
structure SameRegisters (s t : State) : Prop where
  phase : t.phase = s.phase
  busy : t.busy = s.busy
  err : t.err = s.err
  outrem : t.outrem = s.outrem
  lastk : t.lastk = s.lastk
  errcmd : t.errcmd = s.errcmd
  roundCounter : t.roundCounter = s.roundCounter

theorem SameRegisters.inv {s t : State} (h : SameRegisters s t) (hinv : s.Inv) : t.Inv := by
  rw [State.Inv, h.phase, h.busy, h.err, h.outrem, h.lastk, h.errcmd, h.roundCounter]
  exact hinv

/-- A write leaves the status registers as they are, unless it issues a command word (R43 to R47). -/
theorem writeEntry_registers_or_issue {s t : State} {e : MapEntry} {v : BitVec 64}
    (h : writeEntry s e v = .next t) : SameRegisters s t ∨ ∃ w, issue w s = .next t := by
  obtain ⟨j, -, rfl⟩ | ⟨i, -, rfl⟩ | ⟨-, hissue⟩ | ⟨-, rfl⟩ | rfl := writeEntry_cases h
  · exact .inl ⟨rfl, rfl, rfl, rfl, rfl, rfl, rfl⟩
  · exact .inl ⟨rfl, rfl, rfl, rfl, rfl, rfl, rfl⟩
  · exact .inr ⟨_, hissue⟩
  · exact .inl ⟨rfl, rfl, rfl, rfl, rfl, rfl, rfl⟩
  · exact .inl ⟨rfl, rfl, rfl, rfl, rfl, rfl, rfl⟩

/-- Everything a step can do to the status registers: nothing, what the issue of a word does, or reset. -/
theorem step_registers_cases {s t : State} (h : step s = .next t) :
    SameRegisters s t ∨ (∃ w rest, issue w (s.setPending rest) = .next t) ∨
      (s.pending.head? = some .reset ∧ ∃ rest, t = (s.setPending rest).applyReset) := by
  obtain ⟨-, rfl⟩ | ⟨op, rest, hp, haction⟩ := step_cases h
  · exact .inl ⟨rfl, rfl, rfl, rfl, rfl, rfl, rfl⟩
  · obtain ⟨off, width, v, -, hw⟩ | ⟨off, width, -, hr⟩ | ⟨rfl, rfl⟩ | ⟨-, rfl⟩ | ⟨-, -, rfl⟩ := haction
    · obtain ⟨e, -, -, hentry⟩ := busWrite_cases hw
      rcases writeEntry_registers_or_issue hentry with hsame | ⟨w, hissue⟩
      · exact .inl ⟨hsame.phase, hsame.busy, hsame.err, hsame.outrem, hsame.lastk, hsame.errcmd,
          hsame.roundCounter⟩
      · exact .inr (.inl ⟨w, rest, hissue⟩)
    · obtain ⟨e, -, rfl⟩ := busRead_cases hr
      exact .inl ⟨rfl, rfl, rfl, rfl, rfl, rfl, rfl⟩
    · exact .inr (.inr ⟨by rw [hp]; rfl, rest, rfl⟩)
    · exact .inl ⟨rfl, rfl, rfl, rfl, rfl, rfl, rfl⟩
    · exact .inl ⟨rfl, rfl, rfl, rfl, rfl, rfl, rfl⟩

theorem issue_of_fault {s : State} (hphase : s.phase = .fault) (w : CommandWord) : issue w s = .next s := by
  rw [issue_eq, if_pos hphase]

theorem exec_of_fault {s : State} (hphase : s.phase = .fault) (i : Instr) : exec i s = .next s := by
  rw [exec_eq, if_pos hphase]

/-- Settles O11: the guard of R186 stands before decoding and before each command. -/
theorem faultStateIgnoresEveryCommand : Obligations.FaultStateIgnoresEveryCommand :=
  fun _ hphase => ⟨issue_of_fault hphase, exec_of_fault hphase⟩

/-- Settles O12: the fault state ignores an issued word, and no other access touches the registers. -/
theorem onlyResetLeavesTheFaultState : Obligations.OnlyResetLeavesTheFaultState := by
  intro s t hphase hreset h
  obtain hsame | ⟨w, rest, hissue⟩ | ⟨hhead, -⟩ := step_registers_cases h
  · exact ⟨hsame.phase.trans hphase, hsame.err, hsame.errcmd, hsame.outrem, hsame.lastk⟩
  · have ht : s.setPending rest = t :=
      Host.Outcome.next.inj ((issue_of_fault (s := s.setPending rest) hphase w).symm.trans hissue)
    subst ht
    exact ⟨hphase, rfl, rfl, rfl, rfl⟩
  · exact absurd hhead hreset

/-- Fault entry keeps the invariant: it sets ERR and PH together, clears BUSY, and a command word has 32
bits (R185). -/
theorem raiseFault_inv {s : State} (code : ErrorCode) (w : CommandWord) (hinv : s.Inv) :
    (s.raiseFault code w).Inv := by
  obtain ⟨-, -, hcounter, hrem, -, -, hlast, -, -⟩ := hinv
  have hword : (w.setWidth 64).toNat < 2 ^ 32 := by
    rw [BitVec.toNat_setWidth_of_le (by decide)]; exact w.isLt
  exact ⟨by simp, rfl, hcounter, hrem, nofun, by simp, hlast, hword, nofun⟩

theorem commandEffect_init_inv {s : State} (hphase : s.phase ≠ .fault) (hinv : s.Inv) :
    (commandEffect .init s).Inv := by
  obtain ⟨herr, hbusy, hcounter, -, -, -, -, hword, hcmd⟩ := hinv
  exact ⟨iff_of_true (herr.mpr hphase) nofun, hbusy, hcounter, Nat.two_pow_pos 63, nofun, fun _ => rfl,
    Nat.zero_le 168, hword, hcmd⟩

theorem commandEffect_final_valid {s : State} {r : Nat} (hphase : s.phase = .absorb)
    (hn : 0 ≤ sint64 s.outlen) (hr : r < 168) :
    commandEffect (.final r) s =
      { s with
        buf := overlayBlock s.buf (pad (s.bufHead r))
        lanes := permute (absorbXor s.lanes (pad (s.bufHead r)))
        roundCounter := none
        outrem := s.outlen
        lastk := 0
        phase := if 0 < sint64 s.outlen then .squeeze else .idle } := by
  rw [commandEffect, if_neg (not_not.mpr hphase), if_neg (Int.not_lt.mpr hn), if_pos hr]

/-- FINAL keeps the invariant: OUTREM takes a length that is not negative, and the phase says whether it
is zero (R160). -/
theorem commandEffect_final_inv {s : State} {r : Nat} (hphase : s.phase = .absorb)
    (hn : 0 ≤ sint64 s.outlen) (hr : r < 168) (hinv : s.Inv) : (commandEffect (.final r) s).Inv := by
  obtain ⟨herr, hbusy, -, -, -, -, -, hword, hcmd⟩ := hinv
  have hnone : s.err = none := herr.mpr (phase_ne_fault_of_absorb hphase)
  have hpos := sint64_pos_iff hn
  rw [commandEffect_final_valid hphase hn hr]
  refine ⟨iff_of_true hnone ?_, hbusy, rfl, toNat_lt_of_sint64_nonneg hn, fun hsq => ?_, fun hidle => ?_,
    Nat.zero_le 168, hword, hcmd⟩
  · dsimp only; split <;> decide
  · exact hpos.mp (by_contra fun hle => by simp [hle] at hsq)
  · exact by_contra fun hne => by simp [hpos.mpr hne] at hidle

theorem phase_ne_fault_of_squeeze {s : State} (h : s.phase = .squeeze) : s.phase ≠ .fault := by rw [h]; decide

theorem commandEffect_squeeze_more {s : State} (hphase : s.phase = .squeeze) (hmore : 168 < s.outrem.toNat) :
    commandEffect .squeeze s =
      { s with
        buf := stateToBytes s.lanes, lastk := 168, outrem := s.outrem - 168
        lanes := permute s.lanes, roundCounter := none } := by
  rw [commandEffect, if_neg (not_not.mpr hphase), if_pos hmore]

theorem commandEffect_squeeze_last {s : State} (hphase : s.phase = .squeeze) (hlast : s.outrem.toNat ≤ 168) :
    commandEffect .squeeze s =
      { s with buf := stateToBytes s.lanes, lastk := s.outrem, outrem := 0, phase := .idle } := by
  rw [commandEffect, if_neg (not_not.mpr hphase), if_neg (Nat.not_lt.mpr hlast)]

/-- SQUEEZE keeps the invariant: it leaves the phase with bytes missing, or IDLE with none (R165). -/
theorem commandEffect_squeeze_inv {s : State} (hphase : s.phase = .squeeze) (hinv : s.Inv) :
    (commandEffect .squeeze s).Inv := by
  obtain ⟨herr, hbusy, hcounter, hrem, -, -, -, hword, hcmd⟩ := hinv
  have hnone : s.err = none := herr.mpr (phase_ne_fault_of_squeeze hphase)
  rcases Nat.lt_or_ge 168 s.outrem.toNat with hmore | hlast
  · have hsub : (s.outrem - 168).toNat = s.outrem.toNat - 168 := BitVec.toNat_sub_of_le (by bv_omega)
    have hleft : s.outrem - 168 ≠ 0 := by bv_omega
    rw [commandEffect_squeeze_more hphase hmore]
    refine ⟨herr, hbusy, rfl, ?_, fun _ => hleft, ?_, Nat.le_refl 168, hword, hcmd⟩
    · dsimp only; omega
    · simp [hphase]
  · rw [commandEffect_squeeze_last hphase hlast]
    exact ⟨iff_of_true hnone nofun, hbusy, hcounter, Nat.two_pow_pos 63, nofun, fun _ => rfl, hlast, hword, hcmd⟩

/-- No round counter is left by a permutation, so the registers of a state that met the invariant stay. -/
theorem inv_of_permuted {s : State} (A : Lanes) (hinv : s.Inv) :
    State.Inv { s with lanes := A, roundCounter := none } := by
  obtain ⟨herr, hbusy, -, hregisters⟩ := hinv
  exact ⟨herr, hbusy, rfl, hregisters⟩

/-- Every command that is not ignored keeps the invariant. -/
theorem commandEffect_inv (i : Instr) {s : State} (hphase : s.phase ≠ .fault) (hinv : s.Inv) :
    (commandEffect i s).Inv := by
  cases i with
  | init => exact commandEffect_init_inv hphase hinv
  | s2b | xorrate | theta | rho | pi | chi => exact hinv
  | permute => exact inv_of_permuted _ hinv
  | b2s a | pad a | iota a | round a =>
    rw [commandEffect]
    split
    · exact hinv
    · exact raiseFault_inv _ _ hinv
  | absorb =>
    by_cases habsorb : s.phase = .absorb
    · rw [commandEffect, if_pos habsorb]; exact inv_of_permuted _ hinv
    · rw [commandEffect_absorb_elsewhere habsorb]; exact raiseFault_inv _ _ hinv
  | final r =>
    rcases commandEffect_phase_ne_fault_or_raises (.final r) hphase with hvalid | ⟨code, hraise⟩
    · have habsorb : s.phase = .absorb :=
        by_contra fun hother => hvalid (by rw [commandEffect_final_elsewhere r hother]; rfl)
      have hboth : 0 ≤ sint64 s.outlen ∧ r < 168 :=
        by_contra fun hinvalid => hvalid (commandEffect_final_invalid habsorb hinvalid)
      exact commandEffect_final_inv habsorb hboth.1 hboth.2 hinv
    · rw [hraise]; exact raiseFault_inv _ _ hinv
  | squeeze =>
    by_cases hsqueeze : s.phase = .squeeze
    · exact commandEffect_squeeze_inv hsqueeze hinv
    · rw [commandEffect_squeeze_elsewhere hsqueeze]; exact raiseFault_inv _ _ hinv

theorem issue_inv {s t : State} {w : CommandWord} (hinv : s.Inv) (h : issue w s = .next t) : t.Inv := by
  rw [issue_eq] at h
  obtain rfl := Host.Outcome.next.inj h
  split
  case isTrue => exact hinv
  case isFalse hphase =>
    cases decode w with
    | error e => exact raiseFault_inv _ _ hinv
    | ok i => exact commandEffect_inv i hphase hinv

/-- Settles O49: each register of the reset state, read off. -/
theorem resetMeetsTheInvariant : Obligations.ResetMeetsTheInvariant := by
  unfold Obligations.ResetMeetsTheInvariant
  decide

/-- Reset gives every register the value of the reset state, which meets the invariant. -/
theorem applyReset_inv (s : State) : s.applyReset.Inv := resetMeetsTheInvariant

/-- Settles O50: a step leaves the registers, issues a word, or resets, and each keeps the invariant. -/
theorem everyStepKeepsTheInvariant : Obligations.EveryStepKeepsTheInvariant := by
  intro s t hinv h
  obtain hsame | ⟨w, rest, hissue⟩ | ⟨-, rest, rfl⟩ := step_registers_cases h
  · exact hsame.inv hinv
  · exact issue_inv (s := s.setPending rest) hinv hissue
  · exact applyReset_inv _

end Sys2Proof.Machine
end

section
/-! R45, R52, R197: what one step does, by the host action it takes. -/

namespace Sys2Proof.Machine

/-- Settles O6: the step issues the word, and the issue of a word that decodes is the command. -/
theorem stepRunsTheDecodedCommand : Obligations.StepRunsTheDecodedCommand := by
  intro s rest v i hbusy hp hd
  rw [step_issue hp hbusy, issue, hd]
  rfl

/-- Settles O7: the step issues the word, which the fault state ignores and any other state faults on. -/
theorem stepOnAnIllegalWordFaults : Obligations.StepOnAnIllegalWordFaults := by
  intro s rest v e hbusy hp hd
  rw [step_issue hp hbusy]
  by_cases hphase : s.phase = .fault
  · rw [if_pos hphase]; exact issue_of_fault (s := s.setPending rest) hphase _
  · rw [if_neg hphase]; exact issue_of_decode_error (s := s.setPending rest) hphase hd

theorem step_of_pending_write {s : State} {off : Offset} {width : Nat} {v : BitVec 64} {rest : List HostOp}
    (hp : s.pending = .write off width v :: rest) : step s = busWrite off width v (s.setPending rest) := by
  simp only [step, hp, hostAction]

/-- Settles O8: the step is the access itself, on the state without the action. -/
theorem stepPerformsTheHostAccess : Obligations.StepPerformsTheHostAccess := by
  intro s rest off width v
  refine ⟨step_of_pending_write, fun hp hbusy hread => ?read⟩
  case read =>
    obtain ⟨e, he, rfl⟩ := Option.map_eq_some_iff.mp hread
    exact step_read hp he hbusy

theorem step_of_no_pending {s : State} (hp : s.pending = []) : step s = .next s := by
  simp only [step, hp]

/-- Settles O9: the waiting step, and what reset leaves of the host's side. -/
theorem waitingAndResetKeepTheHostSide : Obligations.WaitingAndResetKeepTheHostSide :=
  fun _ => ⟨step_of_no_pending,
    fun _ hp => ⟨_, step_reset hp, applyReset_pending _, applyReset_responses _, applyReset_roundCounter _⟩⟩

end Sys2Proof.Machine
end

section
/-! R42 and R206: a host whose accesses the map admits always gets a step. -/

namespace Sys2Proof.Machine

theorem issue_answers (w : CommandWord) (s : State) :
    ∃ t, issue w s = .next t ∧ t.pending = s.pending := by
  refine ⟨_, issue_eq w s, ?_⟩
  split
  · rfl
  · split
    · rfl
    · exact commandEffect_pending _ s

/-- A write to a register of the map answers, and leaves the host's pending actions. -/
theorem writeEntry_answers (s : State) (e : MapEntry) (v : BitVec 64) :
    ∃ t, writeEntry s e v = .next t ∧ t.pending = s.pending := by
  cases e with
  | cmd => exact issue_answers _ s
  | buf | lane | status | outlen | outrem | lastk | errcmd => exact ⟨_, rfl, rfl⟩

theorem admitted_rbs {k : Nat} (hk : k ≤ 200) : ∀ op ∈ rbs 0 k, op.admitted = true := by
  intro op hop
  obtain ⟨d, hd, rfl⟩ := List.mem_map.mp hop
  have hlt : d < 200 := Nat.lt_of_lt_of_le (List.mem_range.mp hd) hk
  rw [Nat.zero_add, rb, HostOp.admitted, mapEntry_buf ⟨d, hlt⟩]
  rfl

/-- R170: the actions the host loop goes on with are admitted. -/
theorem admitted_squeezeTurn (p : Prop) [Decidable p] :
    ∀ op ∈ (if p then [command .squeeze, .readOutput, .squeezeLoop] else []), op.admitted = true := by
  split
  · decide
  · exact fun _ hop => absurd hop List.not_mem_nil

/-- Settles O51: the action is admitted and BUSY is 0, so it answers; the actions the host loop adds are
admitted, because LASTK is at most 168. -/
theorem admittedHostIsNeverStuck : Obligations.AdmittedHostIsNeverStuck := by
  intro s hinv hadmitted
  obtain ⟨-, hbusy, -, -, -, -, hlast, -, -⟩ := hinv
  cases hp : s.pending with
  | nil => exact ⟨s, step_of_no_pending hp, hadmitted⟩
  | cons op rest =>
    rw [State.HostAdmitted, hp] at hadmitted
    obtain ⟨hop, hrest⟩ := List.forall_mem_cons.mp hadmitted
    cases op with
    | write off width v =>
      obtain ⟨e, he⟩ := Option.isSome_iff_exists.mp hop
      obtain ⟨t, hwrite, hpending⟩ := writeEntry_answers (s.setPending rest) e v
      exact ⟨t, (step_write hp he hbusy).trans hwrite, by rw [State.HostAdmitted, hpending]; exact hrest⟩
    | read off width =>
      obtain ⟨e, he⟩ := Option.isSome_iff_exists.mp hop
      exact ⟨_, step_read hp he hbusy, hrest⟩
    | reset => exact ⟨_, step_reset hp, hrest⟩
    | squeezeLoop =>
      exact ⟨_, step_squeezeLoop hp, List.forall_mem_append.mpr ⟨admitted_squeezeTurn _, hrest⟩⟩
    | readOutput =>
      have hreads := admitted_rbs (Nat.le_trans hlast (by decide))
      exact ⟨_, step_readOutput hp hbusy, List.forall_mem_append.mpr ⟨hreads, hrest⟩⟩

end Sys2Proof.Machine
end

section
/-! R40, R51, R206: reads, accesses while BUSY = 1, and absolute addresses. -/

namespace Sys2Proof.Machine

/-- When a read answers, and what: the map admits it, and STATUS is what it reads if BUSY = 1 (R51, R206). -/
theorem busRead_eq_next_iff {off : Offset} {width : Nat} {s t : State} :
    busRead off width s = .next t ↔
      ∃ e, mapEntry off width = some e ∧ (s.busy = true → e = .status) ∧
        s.respond off (readEntry s e) = t := by
  rw [busRead]
  cases mapEntry off width with
  | none => simp
  | some e =>
    by_cases hstall : s.busy = true ∧ e ≠ .status
    · simp [hstall]
    · have hstatus : s.busy = true → e = .status := fun hb => by_contra fun hne => hstall ⟨hb, hne⟩
      dsimp only
      rw [if_neg hstall]
      exact ⟨fun h => ⟨e, rfl, hstatus, Host.Outcome.next.inj h⟩,
        fun ⟨_, he, _, ht⟩ => by cases he; rw [ht]⟩

/-- No register shows what the host has read. -/
theorem readEntry_respond (s : State) (off : Offset) (v : BitVec 64) (e : MapEntry) :
    readEntry (s.respond off v) e = readEntry s e := by cases e <;> rfl

/-- Settles O56: the read only logs its value, which no register shows. -/
theorem readsHaveNoSideEffectAndAreIdempotent : Obligations.ReadsHaveNoSideEffectAndAreIdempotent := by
  intro s t off width h
  obtain ⟨e, he, hstatus, rfl⟩ := busRead_eq_next_iff.mp h
  refine ⟨readEntry s e, readValue_of_entry s he, rfl, busRead_eq_next_iff.mpr ⟨e, he, hstatus, ?_⟩⟩
  rw [readEntry_respond]
  rfl

theorem off_of_mapEntry_status {off : Offset} {width : Nat} (h : mapEntry off width = some .status) :
    off = statusOffset := by
  unfold mapEntry at h
  dsimp only at h
  split_ifs at h with hbuf hw hlane hw hcmd hw hw hstatus
  all_goals cases h
  exact hstatus

/-- Settles O57: STATUS is the one entry that may be read, and it is reached at 0x208 only. -/
theorem busyAdmitsOnlyTheStatusRead : Obligations.BusyAdmitsOnlyTheStatusRead := by
  intro s off width v hbusy hadmitted
  obtain ⟨e, he⟩ := Option.isSome_iff_exists.mp hadmitted
  refine ⟨?write, fun hoff => ?read, ?status⟩
  case write => simp [busWrite, he, hbusy]
  case read =>
    have hne : e ≠ .status := fun heq => hoff (off_of_mapEntry_status (heq ▸ he))
    simp [busRead, he, hbusy, hne]
  case status => exact busRead_eq_next_iff.mpr ⟨.status, mapEntry_status, fun _ => rfl, rfl⟩

theorem offsetOf_baseAddr_add (off : Offset) : Config.offsetOf (Config.baseAddr + off.toNat) = some off := by
  have hlt := off.isLt
  rw [Config.offsetOf, if_pos ⟨by omega, by omega⟩, Nat.add_sub_cancel_left, BitVec.ofNat_toNat,
    BitVec.setWidth_eq]

theorem offsetOf_outside {addr : Nat} (h : addr < Config.baseAddr ∨ Config.baseAddr + 0x1000 ≤ addr) :
    Config.offsetOf addr = none := if_neg (by omega)

/-- Settles O60: an address of the 4 KiB has its offset, and any other address has none. -/
theorem addressesAreOffsetsFromTheBase : Obligations.AddressesAreOffsetsFromTheBase := by
  intro addr width off v
  refine ⟨?write, ?read, fun hout => ⟨?writeOutside, ?readOutside⟩⟩
  case write => rw [memWrite, offsetOf_baseAddr_add]; rfl
  case read => rw [memRead, offsetOf_baseAddr_add]; rfl
  case writeOutside => rw [memWrite, offsetOf_outside hout]; rfl
  case readOutside => rw [memRead, offsetOf_outside hout]; rfl

end Sys2Proof.Machine
end

section
/-! R80 to R87: the serialized lanes byte by byte, and the two conversions and XORRATE as inverses. -/

namespace Sys2Proof.Machine

/-- R82: byte `8i + k` of the serialized state is byte `k` of lane `i`. -/
theorem stateToBytes_get_lane (A : Lanes) (i : Fin 25) (k : Fin 8) :
    (stateToBytes A)[8 * i.val + k.val]'(by omega) = laneByte A[i] k.val := by
  have hlane : (8 * i.val + k.val) / 8 = i.val := by omega
  have hbyte : (8 * i.val + k.val) % 8 = k.val := by omega
  simp only [stateToBytes_get _ _ (show 8 * i.val + k.val < 200 by omega), hlane, hbyte, Fin.getElem_fin]

/-- Settles O59: the window of a lane is the lane, whose bytes are serialized in order. -/
theorem laneWindowIsLittleEndian : Obligations.LaneWindowIsLittleEndian :=
  fun s i k => (stateToBytes_get_lane s.lanes i k).symm

/-- Settles O20: BUF becomes the serialized lanes. -/
theorem s2bSerializesTheLanesLittleEndian : Obligations.S2bSerializesTheLanesLittleEndian :=
  fun s hphase => ⟨stateToBytes s.lanes, exec_of_ne hphase .s2b, stateToBytes_get_lane s.lanes⟩

/-- R80 and R84: what a block XORs into byte `k` of a lane of the rate. -/
theorem laneByte_absorbXor (A : Lanes) (blk : Block) (i : Fin 21) (k : Fin 8) :
    laneByte (absorbXor A blk)[i.val] k.val =
      laneByte A[i.val] k.val ^^^ blk[8 * i.val + k.val]'(by omega) := by
  have hbyte : byteOrZero blk.toList (8 * i.val + k.val) = blk[8 * i.val + k.val]'(by omega) := by
    rw [byteOrZero_of_lt _ _ (by rw [Vector.length_toList]; omega), Vector.getElem_toList]
  rw [absorbXor_get A blk i.val (by omega), if_pos i.isLt, laneByte_xor, laneByte_packLane _ _ _ k.isLt, hbyte]

/-- Settles O21: the lanes become `absorbXor` of the block, which is BUF byte by byte. -/
theorem xorrateXorsTheBlockIntoTheRateLanes : Obligations.XorrateXorsTheBlockIntoTheRateLanes := by
  intro s hphase
  refine ⟨absorbXor s.lanes s.rateBlock, exec_of_ne hphase .xorrate, fun i k => ?rate,
    absorbXor_capacity s.lanes s.rateBlock⟩
  case rate =>
    have hbyte := rateBlock_get s ⟨8 * i.val + k.val, by omega⟩
    exact (laneByte_absorbXor s.lanes s.rateBlock i k).trans (congrArg _ hbyte)

theorem bytesToState_stateToBytes (A : Lanes) : bytesToState (stateToBytes A).toList = A := by
  refine vector_ext fun i => lane_ext fun k hk => ?_
  have hj : 8 * i.val + k < (stateToBytes A).toList.length := by rw [Vector.length_toList]; omega
  rw [laneByte_bytesToState _ i ⟨k, hk⟩, byteOrZero_of_lt _ _ hj, Vector.getElem_toList,
    stateToBytes_get_lane A i ⟨k, hk⟩]

/-- R80 and R82: byte `j` of the serialized state is byte `j` of the sequence packed into it. -/
theorem stateToBytes_bytesToState_get (b : List Byte) (j : Nat) (h : j < 200) :
    (stateToBytes (bytesToState b))[j] = byteOrZero b j := by
  rw [stateToBytes_get _ _ h, bytesToState_get _ _ (by omega), laneByte_packLane _ _ _ (by omega),
    Nat.div_add_mod]

/-- Settles O23: lane by lane and byte by byte; past the sequence the packed bytes are zero. -/
theorem codecConversionsAreInverse : Obligations.CodecConversionsAreInverse := by
  refine ⟨bytesToState_stateToBytes, fun b hlen => List.ext_getElem ?length fun j hj hj' => ?byte⟩
  case length => rw [Vector.length_toList, List.length_append, List.length_replicate]; omega
  case byte =>
    rw [Vector.length_toList] at hj
    rw [Vector.getElem_toList, stateToBytes_bytesToState_get b j hj]
    obtain hin | hpast := Nat.lt_or_ge j b.length
    · rw [byteOrZero_of_lt b j hin, List.getElem_append_left hin]
    · rw [byteOrZero_of_ge b j hpast, List.getElem_append_right hpast, List.getElem_replicate]

theorem absorbXor_absorbXor (A : Lanes) (blk : Block) : absorbXor (absorbXor A blk) blk = A := by
  refine vector_ext fun i => ?_
  rw [absorbXor_eq_xor, absorbXor_eq_xor, BitVec.xor_assoc, BitVec.xor_self, BitVec.xor_zero]

/-- Settles O24: the second XORRATE reads the same block, since the first writes no BUF byte. -/
theorem xorrateTwiceRestoresTheState : Obligations.XorrateTwiceRestoresTheState := by
  intro s hphase
  calc execAll [.xorrate, .xorrate] s
    _ = execAll [.xorrate] { s with lanes := absorbXor s.lanes s.rateBlock } := execAll_cons_of_ne hphase
    _ = .next { s with lanes := absorbXor (absorbXor s.lanes s.rateBlock) s.rateBlock } :=
      execAll_cons_of_ne hphase
    _ = .next s := by rw [absorbXor_absorbXor]

end Sys2Proof.Machine
end

section
/-! R101 to R103: the tables against their properties, closed forms and generation rules. -/

namespace Sys2Proof.Machine

/-- R104: PI takes no lane twice. -/
theorem PI_injective : ∀ i j : Fin 25, PI[i] = PI[j] → i = j := by decide

/-- Settles O26: every clause speaks of the entries of three finite tables, and evaluates to true. -/
theorem constantTablesHaveTheirProperties : Obligations.ConstantTablesHaveTheirProperties := by
  refine ⟨PI_injective, ?piFixedPoint, ?piClosedForm, ?rho, ?rhoWalk, ?rcBits, ?rcRegister⟩
  case piFixedPoint => decide
  case piClosedForm => decide
  case rho => decide
  case rhoWalk => decide +kernel
  case rcBits => decide +kernel
  case rcRegister => decide +kernel

end Sys2Proof.Machine
end

section
/-! R116: theta, rho and pi are linear over XOR, and so keep the zero state. -/

namespace Sys2Proof.Machine

/-- The XOR of two states, lane by lane. -/
def xorLanes (A B : Lanes) : Lanes := Vector.zipWith (· ^^^ ·) A B

theorem xorLanes_get (A B : Lanes) (i : Nat) (h : i < 25) : (xorLanes A B)[i] = A[i] ^^^ B[i] :=
  Vector.getElem_zipWith h

theorem zeroLanes_get (i : Nat) (h : i < 25) : zeroLanes[i] = 0#64 := Vector.getElem_replicate h

theorem xorLanes_self (A : Lanes) : xorLanes A A = zeroLanes :=
  Vector.ext fun i h => by rw [xorLanes_get A A i h, zeroLanes_get i h, BitVec.xor_self]

theorem eq_of_xorLanes_eq_zero {A B : Lanes} (h : xorLanes A B = zeroLanes) : A = B := by
  refine Vector.ext fun i hi => BitVec.xor_eq_zero_iff.mp ?_
  rw [← xorLanes_get A B i hi, h, zeroLanes_get i hi]

theorem columnParity_xorLanes (A B : Lanes) (x : Nat) (h : x < 5) :
    (columnParity (xorLanes A B))[x] = (columnParity A)[x] ^^^ (columnParity B)[x] := by
  simp only [columnParity_get _ x h, xorLanes_get]
  ac_rfl

theorem thetaEffect_xorLanes (A B : Lanes) (x : Nat) (h : x < 5) :
    (thetaEffect (columnParity (xorLanes A B)))[x] =
      (thetaEffect (columnParity A))[x] ^^^ (thetaEffect (columnParity B))[x] := by
  simp only [thetaEffect_get _ x h, columnParity_xorLanes, rotl64_xor]
  ac_rfl

theorem theta_xorLanes (A B : Lanes) : theta (xorLanes A B) = xorLanes (theta A) (theta B) := by
  refine Vector.ext fun i h => ?_
  simp only [theta_get _ i h, xorLanes_get, thetaEffect_xorLanes]
  ac_rfl

theorem rho_xorLanes (A B : Lanes) : rho (xorLanes A B) = xorLanes (rho A) (rho B) :=
  Vector.ext fun i h => by simp only [rho_get _ i h, xorLanes_get, rotl64_xor]

theorem pi_xorLanes (A B : Lanes) : pi (xorLanes A B) = xorLanes (pi A) (pi B) :=
  Vector.ext fun i h => by simp only [pi_get _ i h, xorLanes_get]

/-- A linear operation keeps the zero state, which is the XOR of any state with itself. -/
theorem zero_of_linear {f : Lanes → Lanes} (hf : ∀ A B, f (xorLanes A B) = xorLanes (f A) (f B)) :
    f zeroLanes = zeroLanes :=
  calc f zeroLanes = f (xorLanes zeroLanes zeroLanes) := by rw [xorLanes_self]
    _ = xorLanes (f zeroLanes) (f zeroLanes) := hf _ _
    _ = zeroLanes := xorLanes_self _

theorem chi_zeroLanes : chi zeroLanes = zeroLanes :=
  Vector.ext fun i h => by simp only [chi_get _ i h, zeroLanes_get, BitVec.and_zero, BitVec.xor_zero]

theorem round_zeroLanes (ir : Fin 24) : round zeroLanes ir = zeroLanes.set 0 RC[ir] := by
  rw [round, zero_of_linear theta_xorLanes, zero_of_linear rho_xorLanes, zero_of_linear pi_xorLanes,
    chi_zeroLanes, iota, zeroLanes_get 0 (by decide), BitVec.zero_xor]

/-- Settles O36: the three linear operations, the zero state they keep, and its round. -/
theorem linearOperationsAndTheZeroState : Obligations.LinearOperationsAndTheZeroState :=
  ⟨fun A B => ⟨theta_xorLanes A B, rho_xorLanes A B, pi_xorLanes A B⟩, zero_of_linear theta_xorLanes,
    zero_of_linear rho_xorLanes, zero_of_linear pi_xorLanes, chi_zeroLanes, round_zeroLanes⟩

end Sys2Proof.Machine
end

section
/-! R130: the permutation round by round, and as a sequence of commands. -/

namespace Sys2Proof.Machine

/-- A_k of R130: the lanes after the rounds 0, ..., k-1. -/
def lanesAfterRounds (A : Lanes) (k : Nat) : Lanes := ((List.finRange 24).take k).foldl round A

theorem lanesAfterRounds_succ (A : Lanes) (k : Fin 24) :
    lanesAfterRounds A (k.val + 1) = round (lanesAfterRounds A k.val) k := by
  have hk : k.val < (List.finRange 24).length := by rw [List.length_finRange]; exact k.isLt
  rw [lanesAfterRounds, List.take_succ_eq_append_getElem hk, List.foldl_append, List.getElem_finRange]
  rfl

theorem permute_eq_lanesAfterRounds (A : Lanes) : permute A = lanesAfterRounds A 24 := by
  rw [lanesAfterRounds, List.take_of_length_le (by rw [List.length_finRange])]
  rfl

/-- Settles O33: the lanes after `k` rounds are A_k. -/
theorem permuteRunsTheTwentyFourRounds : Obligations.PermuteRunsTheTwentyFourRounds := by
  intro s hphase
  refine ⟨lanesAfterRounds s.lanes, rfl, permute_eq_lanesAfterRounds s.lanes,
    lanesAfterRounds_succ s.lanes, ?_⟩
  rw [exec_of_ne hphase, commandEffect, permute_eq_lanesAfterRounds]

/-- R66: ROUNDS24 is the 24 ROUND commands in the order of the rounds of R130. -/
theorem rounds24_eq : rounds24 = (List.finRange 24).map fun k => .round k.val := by decide

theorem execAll_of_fault {s : State} (hphase : s.phase = .fault) (is : List Instr) :
    execAll is s = .next s := by
  induction is with
  | nil => rfl
  | cons i is ih => rw [execAll, exec_of_fault hphase]; exact ih

/-- ROUND commands in sequence apply their rounds to the lanes in that order. -/
theorem execAll_rounds (ks : List (Fin 24)) {s : State} (hphase : s.phase ≠ .fault) :
    execAll (ks.map fun k => .round k.val) s = .next { s with lanes := ks.foldl round s.lanes } := by
  induction ks generalizing s with
  | nil => rfl
  | cons k ks ih =>
    rw [List.map_cons, execAll_cons_of_ne hphase, commandEffect_round, ih (by exact hphase), List.foldl_cons]

/-- Settles O34: both are ignored in the fault state, and elsewhere both apply the rounds 0 to 23. -/
theorem twentyFourRoundCommandsEqualPermute : Obligations.TwentyFourRoundCommandsEqualPermute := by
  intro s hcounter
  by_cases hphase : s.phase = .fault
  · rw [execAll_of_fault hphase, exec_of_fault hphase]
  · rw [rounds24_eq, execAll_rounds _ hphase, exec_of_ne hphase, commandEffect, ← hcounter]
    rfl

end Sys2Proof.Machine
end

section
/-! R134: the permutation is a bijection, because each operation of a round is injective. The one that takes
an idea is theta. A state that theta sends to zero has lanes equal to the column effects, so its column
parities satisfy `C[x] = C[x-1] + rotl C[x+1]`. Over XOR this relation can be squared without cross terms,
and after six squarings the rotation is one by 64 places, that is, none. -/

namespace Sys2Proof.Machine

/-- Squaring a relation over XOR: the two cross terms cancel. -/
theorem xor_relation_double {G : Type} [AddCommGroup G] {c : G → Bool} {a b : G}
    (h : ∀ g, c g = (c (g + a) ^^ c (g + b))) (g : G) : c g = (c (g + (a + a)) ^^ c (g + (b + b))) := by
  have hcross : g + b + a = g + a + b := add_right_comm g b a
  have hcancel : ∀ p q r : Bool, ((p ^^ q) ^^ (q ^^ r)) = (p ^^ r) := by decide
  rw [h g, h (g + a), h (g + b), hcross, add_assoc g a a, add_assoc g b b, hcancel]

theorem xor_relation_pow_two {G : Type} [AddCommGroup G] {c : G → Bool} {a b : G}
    (h : ∀ g, c g = (c (g + a) ^^ c (g + b))) (m : Nat) (g : G) :
    c g = (c (g + 2 ^ m • a) ^^ c (g + 2 ^ m • b)) := by
  induction m generalizing g with
  | zero => simpa using h g
  | succ m ih =>
    have hdouble := xor_relation_double ih g
    rwa [← two_nsmul, ← two_nsmul, ← mul_nsmul, ← mul_nsmul, ← pow_succ] at hdouble

/-- A row of five bits of which each is the XOR of its two neighbours is zero. -/
theorem row_eq_false_of_neighbours :
    ∀ c : Fin 5 → Bool, (∀ x, c x = (c (x + 1) ^^ c (x + 4))) → ∀ x, c x = false := by decide

/-- The relation that theta puts on the parities of a state it sends to zero has the zero solution only. -/
theorem parity_eq_false {c : Fin 5 × Fin 64 → Bool}
    (h : ∀ g, c g = (c (g + (4, 0)) ^^ c (g + (1, 63)))) (x : Fin 5) (k : Fin 64) : c (x, k) = false := by
  have hsquared : ∀ x, c (x, k) = (c (x + 1, k) ^^ c (x + 4, k)) := fun x => by
    have h64 := xor_relation_pow_two h 6 (x, k)
    have ha : 2 ^ 6 • ((4, 0) : Fin 5 × Fin 64) = (1, 0) := by decide
    have hb : 2 ^ 6 • ((1, 63) : Fin 5 × Fin 64) = (4, 0) := by decide
    rwa [ha, hb, Prod.mk_add_mk, Prod.mk_add_mk, add_zero] at h64
  exact row_eq_false_of_neighbours (fun x => c (x, k)) hsquared x

/-- Bit `k` of a lane rotated by one place is the bit below it, and the top bit for `k = 0`. -/
theorem rotl64_one_bit (v : Lane) (k : Fin 64) : (rotl64 v 1).getLsbD k.val = v.getLsbD (k + 63).val := by
  have hback : ((k + 63).val + 1) % 64 = k.val := by rw [Fin.val_add]; omega
  rw [← rotl64_getLsbD_add v 1 (k + 63).val (by decide) (k + 63).isLt, hback]

/-- A state that theta sends to zero is its own column effects. -/
theorem lane_of_theta_eq_zero {X : Lanes} (h : theta X = zeroLanes) (i : Nat) (hi : i < 25) :
    X[i] = (thetaEffect (columnParity X))[i % 5]'(by omega) := by
  rw [← BitVec.xor_eq_zero_iff, ← theta_get X i hi, h, zeroLanes_get i hi]

/-- Its column parities, of five equal lanes each, are these column effects too. -/
theorem parity_of_theta_eq_zero {X : Lanes} (h : theta X = zeroLanes) (x : Nat) (hx : x < 5) :
    (columnParity X)[x] = (thetaEffect (columnParity X))[x] := by
  have hlane := lane_of_theta_eq_zero h
  have h0 : x % 5 = x := Nat.mod_eq_of_lt hx
  have h5 : (x + 5) % 5 = x := by omega
  have h10 : (x + 10) % 5 = x := by omega
  have h15 : (x + 15) % 5 = x := by omega
  have h20 : (x + 20) % 5 = x := by omega
  rw [columnParity_get X x hx, hlane x, hlane (x + 5), hlane (x + 10), hlane (x + 15), hlane (x + 20)]
  simp only [h0, h5, h10, h15, h20, BitVec.xor_self, BitVec.zero_xor]

/-- The bits of the column parities, by column and bit position. -/
def parityBit (X : Lanes) (g : Fin 5 × Fin 64) : Bool := (columnParity X)[g.1].getLsbD g.2.val

theorem parityBit_of_theta_eq_zero {X : Lanes} (h : theta X = zeroLanes) (g : Fin 5 × Fin 64) :
    parityBit X g = (parityBit X (g + (4, 0)) ^^ parityBit X (g + (1, 63))) := by
  obtain ⟨x, k⟩ := g
  have hbit := congrArg (fun v : Lane => v.getLsbD k.val) (parity_of_theta_eq_zero h x.val x.isLt)
  rw [thetaEffect_get _ x.val x.isLt, BitVec.getLsbD_xor, rotl64_one_bit] at hbit
  rw [Prod.mk_add_mk, Prod.mk_add_mk, add_zero]
  exact hbit

theorem columnParity_eq_zero {X : Lanes} (h : theta X = zeroLanes) (x : Nat) (hx : x < 5) :
    (columnParity X)[x] = 0#64 :=
  BitVec.eq_of_getLsbD_eq fun k hk => by
    rw [BitVec.getLsbD_zero]
    exact parity_eq_false (parityBit_of_theta_eq_zero h) ⟨x, hx⟩ ⟨k, hk⟩

theorem eq_zero_of_theta_eq_zero {X : Lanes} (h : theta X = zeroLanes) : X = zeroLanes := by
  refine Vector.ext fun i hi => ?_
  rw [zeroLanes_get i hi, lane_of_theta_eq_zero h i hi, ← parity_of_theta_eq_zero h,
    columnParity_eq_zero h]

theorem theta_injective : Function.Injective theta := fun A B h => by
  refine eq_of_xorLanes_eq_zero (eq_zero_of_theta_eq_zero ?_)
  rw [theta_xorLanes, h, xorLanes_self]

theorem rotl64_injective (n : Fin 64) : Function.Injective fun v => rotl64 v n.val := fun v w h =>
  BitVec.eq_of_getLsbD_eq fun k hk => by
    rw [← rotl64_getLsbD_add v n.val k n.isLt hk, ← rotl64_getLsbD_add w n.val k n.isLt hk]
    exact congrArg (fun u : Lane => u.getLsbD ((k + n.val) % 64)) h

theorem rho_injective : Function.Injective rho := fun A B h => Vector.ext fun i hi => by
  have hlane : (rho A)[i] = (rho B)[i] := by rw [h]
  rw [rho_get A i hi, rho_get B i hi] at hlane
  exact rotl64_injective _ hlane

/-- R104: PI reaches every lane, being injective on the 25 lanes. -/
theorem PI_surjective (j : Fin 25) : ∃ i : Fin 25, PI[i] = j :=
  Finite.injective_iff_surjective.mp PI_injective j

theorem pi_injective : Function.Injective pi := fun A B h => vector_ext fun j => by
  obtain ⟨i, rfl⟩ := PI_surjective j
  have hlane : (pi A)[i.val] = (pi B)[i.val] := by rw [h]
  rw [pi_get A i.val i.isLt, pi_get B i.val i.isLt] at hlane
  exact hlane

/-- R108 on one bit of a row. -/
def chiRow (f : Fin 5 → Bool) (x : Fin 5) : Bool := f x ^^ (!f (x + 1) && f (x + 2))

theorem chiRow_injective : ∀ f g : Fin 5 → Bool, (∀ x, chiRow f x = chiRow g x) → ∀ x, f x = g x := by
  decide +kernel

/-- Bit `k` of the lanes of row `r`. -/
def rowBits (A : Lanes) (r : Fin 5) (k : Nat) (x : Fin 5) : Bool :=
  (A[5 * r.val + x.val]'(by omega)).getLsbD k

/-- chi acts on each bit of each row by itself. -/
theorem rowBits_chi (A : Lanes) (r : Fin 5) {k : Nat} (hk : k < 64) (x : Fin 5) :
    rowBits (chi A) r k x = chiRow (rowBits A r k) x := by
  rw [rowBits, chi_get_row_column A r x, BitVec.getLsbD_xor, BitVec.getLsbD_and, BitVec.getLsbD_not,
    decide_eq_true hk, Bool.true_and]
  rfl

/-- Lane `i` is the lane of row `i div 5` and column `i mod 5` (R2). -/
theorem getLsbD_eq_rowBits (A : Lanes) (i : Fin 25) (k : Nat) :
    A[i].getLsbD k = rowBits A ⟨i.val / 5, by omega⟩ k ⟨i.val % 5, by omega⟩ := by
  simp only [rowBits, Nat.div_add_mod, Fin.getElem_fin]

theorem chi_injective : Function.Injective chi := fun A B h =>
  vector_ext fun i => BitVec.eq_of_getLsbD_eq fun k hk => by
    rw [getLsbD_eq_rowBits, getLsbD_eq_rowBits]
    exact chiRow_injective _ _ (fun x => by rw [← rowBits_chi A _ hk, h, rowBits_chi B _ hk]) _

theorem iota_injective (ir : Fin 24) : Function.Injective fun A => iota A ir := fun A B h =>
  Vector.ext fun i hi => by
    have hlane : (iota A ir)[i] = (iota B ir)[i] := congrArg (fun C : Lanes => C[i]) h
    by_cases h0 : i = 0
    · subst h0
      rw [iota_get_zero, iota_get_zero] at hlane
      exact (BitVec.xor_left_inj _).mp hlane
    · rwa [iota_get_other A ir i hi h0, iota_get_other B ir i hi h0] at hlane

theorem round_injective (ir : Fin 24) : Function.Injective fun A => round A ir :=
  (iota_injective ir).comp (chi_injective.comp (pi_injective.comp (rho_injective.comp theta_injective)))

theorem foldl_round_injective (ks : List (Fin 24)) : Function.Injective fun A => ks.foldl round A := by
  induction ks with
  | nil => exact Function.injective_id
  | cons k ks ih => exact ih.comp (round_injective k)

/-- There are finitely many states, as each is its 25 lanes. -/
theorem finite_lanes : Finite Lanes :=
  Finite.of_injective (fun (A : Lanes) (i : Fin 25) => A[i]) fun _ _ h => vector_ext (congrFun h)

/-- Settles O35: the permutation is injective round by round, and so bijective on finitely many states. -/
theorem permuteIsABijection : Obligations.PermuteIsABijection :=
  have := finite_lanes
  Finite.injective_iff_bijective.mp (foldl_round_injective (List.finRange 24))

end Sys2Proof.Machine
end

section
/-! R143 and R155 to R165: the padded buffer, and the sponge commands as compositions of the others. -/

namespace Sys2Proof.Machine

/-- Settles O39: the effect of INIT, its zero lanes read one by one. -/
theorem initStartsAComputation : Obligations.InitStartsAComputation :=
  fun _ hphase => ⟨zeroLanes, exec_of_ne hphase .init, fun i => zeroLanes_get i.val i.isLt⟩

theorem overlayBlock_get_rate (b : Buffer) (P : Block) (j : Fin 168) : (overlayBlock b P)[j.val] = P[j] := by
  simp [overlayBlock]

theorem overlayBlock_get_past (b : Buffer) (P : Block) (j : Fin 200) (hj : 168 ≤ j.val) :
    (overlayBlock b P)[j] = b[j] := by
  simp [overlayBlock, Nat.not_lt.mpr hj]

theorem exec_pad_of_legal {s : State} {r : Nat} (hphase : s.phase ≠ .fault) (hr : r < 168) :
    exec (.pad r) s = .next { s with buf := overlayBlock s.buf (pad (s.bufHead r)) } := by
  rw [exec_of_ne hphase, commandEffect, if_pos hr]
  rfl

/-- R140 and R141 without the XOR: the tail, then 0x1F, zeros and 0x80, which meet in 0x9F. -/
theorem pad_bufHead_cases (s : State) (r : Nat) (hr : r < 168) (j : Fin 168) :
    (pad (s.bufHead r))[j] =
      if j.val < r then s.buf[j.val]
      else if j.val = 167 then (if r = 167 then 0x9F else 0x80)
      else if j.val = r then 0x1F
      else 0x00 := by
  refine (pad_bufHead_get s r j.val hr j.isLt).trans ?_
  by_cases htail : j.val < r
  · have hne : j.val ≠ r := by omega
    have hlast : j.val ≠ 167 := by omega
    simp [htail, hne, hlast]
  · by_cases hlast : j.val = 167
    · by_cases hr' : r = 167
      · simp [hlast, hr']
      · have hlt : ¬ 167 < r := by omega
        simp [hlast, hr', hlt, Ne.symm hr']
    · simp [htail, hlast]

/-- Settles O37: below byte 168 the padded block, and past it the buffer as it was. -/
theorem padReplacesTheTailByItsPaddedBlock : Obligations.PadReplacesTheTailByItsPaddedBlock := by
  intro s r hphase hr
  refine ⟨_, exec_pad_of_legal hphase hr, fun j => ?_⟩
  obtain hrate | hpast := Nat.lt_or_ge j.val 168
  · have hget := (overlayBlock_get_rate s.buf (pad (s.bufHead r)) ⟨j.val, hrate⟩).trans
      (pad_bufHead_cases s r hr ⟨j.val, hrate⟩)
    rw [if_neg (Nat.not_le.mpr hrate)]
    exact hget
  · rw [overlayBlock_get_past _ _ j hpast, if_pos hpast, if_neg (by omega)]
    rfl

theorem commandEffect_absorb_of_block {s : State} {blk : Block} (hphase : s.phase = .absorb)
    (hblock : s.rateBlock = blk) :
    commandEffect .absorb s = { s with lanes := permute (absorbXor s.lanes blk), roundCounter := none } := by
  rw [commandEffect, if_pos hphase, hblock]

theorem exec_absorb {s : State} (hphase : s.phase = .absorb) :
    exec .absorb s =
      .next { s with lanes := permute (absorbXor s.lanes s.rateBlock), roundCounter := none } := by
  rw [exec_of_ne (phase_ne_fault_of_absorb hphase), commandEffect_absorb_of_block hphase rfl]

/-- Settles O40: XORRATE keeps the phase and BUF, and PERMUTE permutes the lanes it leaves. -/
theorem absorbIsXorrateThenPermute : Obligations.AbsorbIsXorrateThenPermute := by
  intro s hphase
  have hne := phase_ne_fault_of_absorb hphase
  have hsequence : execAll [.xorrate, .permute] s =
      .next { s with lanes := permute (absorbXor s.lanes s.rateBlock), roundCounter := none } :=
    (execAll_cons_of_ne hne).trans (execAll_cons_of_ne hne)
  exact ⟨(exec_absorb hphase).trans hsequence.symm, s.rateBlock, rateBlock_get s, exec_absorb hphase⟩

/-- Settles O41: FINAL absorbs the block that PAD puts into BUF. -/
theorem finalPadsAbsorbsAndStartsSqueezing : Obligations.FinalPadsAbsorbsAndStartsSqueezing := by
  intro s r hphase hn hr
  have hne := phase_ne_fault_of_absorb hphase
  refine ⟨_, permute (absorbXor s.lanes (pad (s.bufHead r))), exec_pad_of_legal hne hr, ?absorb, ?final⟩
  case absorb =>
    have hblock := rateBlock_setRateBlock s (pad (s.bufHead r))
    rw [exec_absorb (by exact hphase)]
    exact congrArg (fun P => Host.Outcome.next
      { s.setRateBlock (pad (s.bufHead r)) with
        lanes := permute (absorbXor s.lanes P), roundCounter := none }) hblock
  case final => rw [exec_of_ne hne, commandEffect_final_valid hphase hn hr]

/-- Settles O42: either more than a block is missing and the lanes are permuted, or this was the last one. -/
theorem squeezeEmitsAndPermutesOnlyIfNeeded : Obligations.SqueezeEmitsAndPermutesOnlyIfNeeded := by
  intro s hphase
  have hne := phase_ne_fault_of_squeeze hphase
  rcases Nat.lt_or_ge 168 s.outrem.toNat with hmore | hlast
  · refine ⟨_, 168, s.outrem - 168, exec_of_ne hne .s2b, ?k, ?rem, fun _ => ?permuted,
      fun hle => absurd hmore (Nat.not_lt.mpr hle)⟩
    case k => exact (Nat.min_eq_left hmore.le).symm
    case rem => exact BitVec.toNat_sub_of_le (by bv_omega)
    case permuted => rw [exec_of_ne hne, commandEffect_squeeze_more hphase hmore]
  · refine ⟨_, s.outrem, 0, exec_of_ne hne .s2b, ?k, ?rem, fun hlt => absurd hlt (Nat.not_lt.mpr hlast),
      fun _ => ?emitted⟩
    case k => exact (Nat.min_eq_right hlast).symm
    case rem => exact (Nat.sub_self _).symm
    case emitted => rw [exec_of_ne hne, commandEffect_squeeze_last hphase hlast]

end Sys2Proof.Machine
end

section
/-! R203 and R205: what the commands read of OUTLEN and of BUF. -/

namespace Sys2Proof.Machine

/-- R205 on the effects: another OUTLEN stays, and changes nothing else. -/
theorem commandEffect_with_outlen {i : Instr} (hfinal : ∀ r, i ≠ .final r) (s : State) (v : BitVec 64) :
    commandEffect i { s with outlen := v } = { commandEffect i s with outlen := v } := by
  cases i with
  | final r => exact absurd rfl (hfinal r)
  | init | s2b | xorrate | theta | rho | pi | chi | permute => rfl
  | b2s a | pad a | iota a | round a | absorb => rw [commandEffect, commandEffect]; split <;> rfl
  | squeeze =>
    by_cases hphase : s.phase = .squeeze
    · rcases Nat.lt_or_ge 168 s.outrem.toNat with hmore | hlast
      · rw [commandEffect_squeeze_more hphase hmore, commandEffect_squeeze_more (by exact hphase) (by exact hmore)]
      · rw [commandEffect_squeeze_last hphase hlast, commandEffect_squeeze_last (by exact hphase) (by exact hlast)]
    · rw [commandEffect_squeeze_elsewhere hphase, commandEffect_squeeze_elsewhere (by exact hphase)]
      rfl

/-- Settles O43: the fault state ignores the command with either OUTLEN, and elsewhere its effect reads none. -/
theorem outlenIsReadOnlyByFinal : Obligations.OutlenIsReadOnlyByFinal := by
  intro i s t v hfinal h
  obtain ⟨hphase, rfl⟩ | ⟨hphase, rfl⟩ := exec_cases h
  · exact exec_of_fault (by exact hphase) i
  · rw [exec_of_ne (by exact hphase), commandEffect_with_outlen hfinal]

theorem rateBlock_with_buf {s : State} {b : Buffer} (h : ∀ j : Fin 168, b[j.val] = s.buf[j.val]) :
    State.rateBlock { s with buf := b } = s.rateBlock :=
  vector_ext fun j => by rw [rateBlock_get, rateBlock_get, ← h j]

theorem commandEffect_absorb_lanes (s : State) :
    (commandEffect .absorb s).lanes =
      if s.phase = .absorb then permute (absorbXor s.lanes s.rateBlock) else s.lanes := by
  rw [commandEffect]; split <;> rfl

/-- R87 and R157: of BUF, ABSORB and XORRATE read the block of the rate only. -/
theorem commandEffect_lanes_with_buf {i : Instr} (hi : i = .absorb ∨ i = .xorrate) {s : State} {b : Buffer}
    (h : ∀ j : Fin 168, b[j.val] = s.buf[j.val]) :
    (commandEffect i { s with buf := b }).lanes = (commandEffect i s).lanes := by
  have hblock := rateBlock_with_buf h
  obtain rfl | rfl := hi
  · rw [commandEffect_absorb_lanes, commandEffect_absorb_lanes, hblock]
  · exact congrArg (absorbXor s.lanes) hblock

/-- R165: SQUEEZE overwrites the whole buffer and reads none of it. -/
theorem commandEffect_squeeze_with_buf {s : State} (hphase : s.phase = .squeeze) (b : Buffer) :
    commandEffect .squeeze { s with buf := b } = commandEffect .squeeze s := by
  rcases Nat.lt_or_ge 168 s.outrem.toNat with hmore | hlast
  · rw [commandEffect_squeeze_more hphase hmore, commandEffect_squeeze_more (by exact hphase) (by exact hmore)]
  · rw [commandEffect_squeeze_last hphase hlast, commandEffect_squeeze_last (by exact hphase) (by exact hlast)]

/-- Settles O44: the block of the rate decides ABSORB and XORRATE, and the tail decides the padded block of
FINAL. -/
theorem commandsReadOnlyTheStagedBytes : Obligations.CommandsReadOnlyTheStagedBytes := by
  intro s t t' b r
  refine ⟨fun hbytes i hi ht ht' => ?absorb, fun htail hphase hn hr ht ht' => ?final, fun hphase => ?squeeze⟩
  case absorb =>
    obtain ⟨hfault, rfl⟩ | ⟨hphase, rfl⟩ := exec_cases ht
    · rw [exec_of_fault (by exact hfault)] at ht'
      obtain rfl := Host.Outcome.next.inj ht'
      rfl
    · rw [exec_of_ne (by exact hphase)] at ht'
      obtain rfl := Host.Outcome.next.inj ht'
      exact commandEffect_lanes_with_buf hi hbytes
  case final =>
    have hpad : pad (State.bufHead { s with buf := b } r) = pad (s.bufHead r) := pad_bufHead_congr hr htail
    have hne := phase_ne_fault_of_absorb hphase
    rw [exec_of_ne hne, commandEffect_final_valid hphase hn hr] at ht
    rw [exec_of_ne (by exact hne), commandEffect_final_valid (by exact hphase) (by exact hn) hr, hpad] at ht'
    obtain rfl := Host.Outcome.next.inj ht
    obtain rfl := Host.Outcome.next.inj ht'
    exact ⟨rfl, fun j => (overlayBlock_get_rate _ _ j).trans (overlayBlock_get_rate _ _ j).symm⟩
  case squeeze =>
    have hne := phase_ne_fault_of_squeeze hphase
    rw [exec_of_ne hne, exec_of_ne (by exact hne), commandEffect_squeeze_with_buf hphase]

end Sys2Proof.Machine
end

section
/-! 10_state.md section 1, the column "written by": which pieces of the state each command leaves. -/

namespace Sys2Proof.Machine

/-- R185: ERR, ERRCMD and BUSY are written by fault entry only. -/
theorem commandEffect_raises_or_keeps_err (i : Instr) (s : State) :
    (∃ code, commandEffect i s = s.raiseFault code (encode i)) ∨
      ((commandEffect i s).errcmd = s.errcmd ∧ (commandEffect i s).err = s.err ∧
        (commandEffect i s).busy = s.busy) := by
  cases i with
  | init | s2b | xorrate | theta | rho | pi | chi | permute => exact .inr ⟨rfl, rfl, rfl⟩
  | b2s a | pad a | iota a | round a | absorb =>
    rw [commandEffect]
    split
    · exact .inr ⟨rfl, rfl, rfl⟩
    · exact .inl ⟨_, rfl⟩
  | final r =>
    rw [commandEffect]
    split
    · exact .inl ⟨_, rfl⟩
    · split
      · exact .inl ⟨_, rfl⟩
      · split
        · exact .inr ⟨rfl, rfl, rfl⟩
        · exact .inl ⟨_, rfl⟩
  | squeeze =>
    rw [commandEffect]
    split_ifs
    · exact .inl ⟨_, rfl⟩
    · exact .inr ⟨rfl, rfl, rfl⟩
    · exact .inr ⟨rfl, rfl, rfl⟩

/-- Settles O48: a command answers its effect, and the effect that ends in the fault state is fault entry. -/
theorem everyCommandAnswersANextState : Obligations.EveryCommandAnswersANextState := by
  intro i s
  by_cases hphase : s.phase = .fault
  · exact ⟨s, exec_of_fault hphase i, id, fun hne => absurd hphase hne⟩
  · refine ⟨_, exec_of_ne hphase i, fun hbusy => ?busy, fun _ hfault => ?raised⟩
    case busy =>
      obtain ⟨code, hraise⟩ | ⟨-, -, hkept⟩ := commandEffect_raises_or_keeps_err i s
      · rw [hraise, raiseFault_busy]
      · rw [hkept, hbusy]
    case raised =>
      exact (commandEffect_phase_ne_fault_or_raises i hphase).resolve_left (not_not.mpr hfault)

theorem commandEffect_outlen (i : Instr) (s : State) : (commandEffect i s).outlen = s.outlen := by
  cases i with
  | init | s2b | xorrate | theta | rho | pi | chi | permute => rfl
  | b2s a | pad a | iota a | round a | absorb => rw [commandEffect]; split <;> rfl
  | final r => rw [commandEffect]; split_ifs <;> rfl
  | squeeze => rw [commandEffect]; split_ifs <;> rfl

/-- Fault entry is the one other way in which a command that is not listed for PH changes it (R26). -/
theorem writer_of_phase {i : Instr} {s : State} (h : (commandEffect i s).phase ≠ s.phase) :
    (commandEffect i s).phase = .fault ∨ i = .init ∨ i = .squeeze ∨ ∃ r, i = .final r := by
  refine or_iff_not_imp_right.mpr fun hlisted => ?_
  obtain ⟨hinit, hsqueeze, hfinal⟩ : i ≠ .init ∧ i ≠ .squeeze ∧ ∀ r, i ≠ .final r := by
    simpa using hlisted
  by_cases habsorb : i = .absorb
  · subst habsorb
    have hphase : s.phase ≠ .absorb := fun hp => h ((commandEffect_absorb_phase hp).trans hp.symm)
    rw [commandEffect_absorb_elsewhere hphase, raiseFault_phase]
  · exact ((commandEffect_phase_kept_or_fault s hinit habsorb hfinal hsqueeze).resolve_left h).1

theorem fault_of_err_written {i : Instr} {s : State}
    (h : (commandEffect i s).errcmd ≠ s.errcmd ∨ (commandEffect i s).err ≠ s.err ∨
      (commandEffect i s).busy ≠ s.busy) : (commandEffect i s).phase = .fault := by
  obtain ⟨code, hraise⟩ | ⟨herrcmd, herr, hbusy⟩ := commandEffect_raises_or_keeps_err i s
  · rw [hraise, raiseFault_phase]
  · simp [herrcmd, herr, hbusy] at h

theorem writer_of_lanes {i : Instr} {s : State} (h : (commandEffect i s).lanes ≠ s.lanes) :
    i ≠ .s2b ∧ ∀ r, i ≠ .pad r := by
  refine ⟨?s2b, ?pad⟩
  case s2b => rintro rfl; exact h rfl
  case pad =>
    rintro r rfl
    refine h ?_
    rw [commandEffect]
    split <;> rfl

theorem writer_of_buf {i : Instr} {s : State} (h : (commandEffect i s).buf ≠ s.buf) :
    i = .s2b ∨ i = .squeeze ∨ ∃ r, i = .pad r ∨ i = .final r := by
  cases i with
  | s2b => exact .inl rfl
  | squeeze => exact .inr (.inl rfl)
  | pad r => exact .inr (.inr ⟨r, .inl rfl⟩)
  | final r => exact .inr (.inr ⟨r, .inr rfl⟩)
  | init | xorrate | theta | rho | pi | chi | permute => exact absurd rfl h
  | b2s | iota | round | absorb =>
    refine absurd ?_ h
    rw [commandEffect]
    split <;> rfl

theorem writer_of_counts {i : Instr} {s : State}
    (h : (commandEffect i s).outrem ≠ s.outrem ∨ (commandEffect i s).lastk ≠ s.lastk) :
    i = .init ∨ i = .squeeze ∨ ∃ r, i = .final r := by
  cases i with
  | init => exact .inl rfl
  | squeeze => exact .inr (.inl rfl)
  | final r => exact .inr (.inr ⟨r, rfl⟩)
  | s2b | xorrate | theta | rho | pi | chi | permute => exact (h.elim (· rfl) (· rfl)).elim
  | b2s | pad | iota | round | absorb =>
    rw [commandEffect] at h
    split at h <;> exact (h.elim (· rfl) (· rfl)).elim

theorem writer_of_roundCounter {i : Instr} {s : State}
    (h : (commandEffect i s).roundCounter ≠ s.roundCounter) :
    i = .permute ∨ i = .absorb ∨ i = .squeeze ∨ ∃ r, i = .final r := by
  cases i with
  | permute => exact .inl rfl
  | absorb => exact .inr (.inl rfl)
  | squeeze => exact .inr (.inr (.inl rfl))
  | final r => exact .inr (.inr (.inr ⟨r, rfl⟩))
  | init | s2b | xorrate | theta | rho | pi | chi => exact absurd rfl h
  | b2s | pad | iota | round =>
    refine absurd ?_ h
    rw [commandEffect]
    split <;> rfl

/-- R143 and R160: what PAD and FINAL write into BUF is a block of the rate. -/
theorem commandEffect_bufByte_past {i : Instr} (hi : ∃ r, i = .pad r ∨ i = .final r) (s : State)
    (j : Fin 200) (hj : 168 ≤ j.val) : (commandEffect i s).bufByte j = s.bufByte j := by
  obtain ⟨r, rfl | rfl⟩ := hi
  · rw [commandEffect]
    split
    · exact overlayBlock_get_past _ _ j hj
    · rfl
  · rw [commandEffect]
    split
    · rfl
    · split
      · rfl
      · split
        · exact overlayBlock_get_past _ _ j hj
        · rfl

/-- Settles O47: an ignored command changes nothing, and the effect of any other changes what is listed. -/
theorem commandsWriteOnlyTheirOwnState : Obligations.CommandsWriteOnlyTheirOwnState := by
  intro i s t h
  obtain ⟨-, rfl⟩ | ⟨hphase, rfl⟩ := exec_cases h
  · simp
  · exact ⟨commandEffect_outlen i s, commandEffect_pending i s, commandEffect_responses i s,
      fun herr => ⟨hphase, fault_of_err_written herr⟩, writer_of_phase, writer_of_lanes, writer_of_buf,
      writer_of_counts, writer_of_roundCounter, fun hi => commandEffect_bufByte_past hi s⟩

end Sys2Proof.Machine
end

section
/-! R150: the squeezed bytes, their number, and a shorter output as the first bytes of a longer one. -/

namespace Sys2Proof.Machine

theorem squeezeBytes_none_needed (fuel : Nat) (A : Lanes) : squeezeBytes fuel A 0 = [] := by
  cases fuel <;> rfl

/-- One turn of the squeeze loop: at most a block is emitted, and the rest comes from the permuted lanes. -/
theorem squeezeBytes_succ (fuel : Nat) (A : Lanes) (need : Nat) :
    squeezeBytes (fuel + 1) A need =
      (stateToBytes A).toList.take (min 168 need) ++ squeezeBytes fuel (permute A) (need - 168) := by
  rw [squeezeBytes]
  by_cases hzero : need = 0
  · rw [if_pos hzero, hzero, Nat.zero_sub, squeezeBytes_none_needed]; rfl
  · rw [if_neg hzero]
    rcases Nat.lt_or_ge 168 need with hmore | hlast
    · have hmin : min 168 need = 168 := Nat.min_eq_left hmore.le
      have hleft : need - 168 > 0 := by omega
      simp only [hmin, if_pos hleft]
    · have hmin : min 168 need = need := Nat.min_eq_right hlast
      have hdone : need - 168 = 0 := by omega
      simp only [hmin, hdone, squeezeBytes_none_needed, List.append_nil, Nat.sub_self, gt_iff_lt,
        Nat.lt_irrefl, if_false]

theorem length_emitted (A : Lanes) (need : Nat) :
    ((stateToBytes A).toList.take (min 168 need)).length = min 168 need := by
  rw [List.length_take, Vector.length_toList]; omega

theorem squeezeBytes_length {fuel : Nat} {A : Lanes} {need : Nat} (h : need ≤ fuel) :
    (squeezeBytes fuel A need).length = need := by
  induction fuel generalizing A need with
  | zero => rw [Nat.le_zero.mp h]; rfl
  | succ fuel ih =>
    rw [squeezeBytes_succ, List.length_append, length_emitted, ih (by omega)]
    omega

/-- With fuel enough for both, the bytes needed first are the same however many are needed after them. -/
theorem squeezeBytes_eq_take {fuel fuel' : Nat} {A : Lanes} {need need' : Nat} (h : need ≤ fuel)
    (h' : need' ≤ fuel') (hle : need ≤ need') :
    squeezeBytes fuel A need = (squeezeBytes fuel' A need').take need := by
  induction fuel generalizing A need fuel' need' with
  | zero => rw [Nat.le_zero.mp h]; rfl
  | succ fuel ih =>
    cases fuel' with
    | zero => rw [Nat.le_zero.mp (hle.trans h'), squeezeBytes_none_needed]; rfl
    | succ fuel' =>
      have hmin : min need (min 168 need') = min 168 need := by omega
      have hsub : need - min 168 need' = need - 168 := by omega
      rw [squeezeBytes_succ, squeezeBytes_succ, List.take_append, length_emitted, List.take_take, hmin, hsub,
        ← ih (by omega) (by omega) (by omega)]

theorem shake128_natCast (m : List Byte) (n : Nat) :
    shake128 m n = some (squeezeBytes n (absorbMessage m) n) := by
  rw [shake128, if_neg (Int.not_lt.mpr (Int.natCast_nonneg n)), Int.toNat_natCast]

/-- Settles O45: the fuel of each output is its length, and both squeeze the same absorbed lanes. -/
theorem shakeOutputsAreExactAndPrefixConsistent : Obligations.ShakeOutputsAreExactAndPrefixConsistent := by
  intro m n n' hlt
  exact ⟨_, _, shake128_natCast m n, shake128_natCast m n', squeezeBytes_length le_rfl,
    squeezeBytes_length le_rfl, squeezeBytes_eq_take le_rfl le_rfl hlt.le⟩

end Sys2Proof.Machine
end

section
/-! R170: the host program of SHAKE, piece by piece: the length and INIT, the full blocks, the tail and FINAL,
and the squeeze loop. -/

namespace Sys2Proof.Machine

/-- The staged block is the block that the core reads. -/
theorem rateBlock_of_staged {s : State} {b : Buffer} {blk : Block} (h : s.buf = stage b 0 blk.toList) :
    s.rateBlock = blk := by
  refine vector_ext fun j => ?_
  have hlen : j.val < blk.toList.length := by rw [Vector.length_toList]; exact j.isLt
  have hin : 0 ≤ j.val ∧ j.val < 0 + blk.toList.length := ⟨Nat.zero_le _, by omega⟩
  simp only [rateBlock_get, h, stage_get _ _ _ _ (show j.val < 200 by omega), if_pos hin]
  exact (byteOrZero_of_lt _ _ hlen).trans (Vector.getElem_toList _)

/-- The staged tail is the tail that FINAL pads. -/
theorem bufHead_of_staged {s : State} {b : Buffer} {tail : List Byte} (h : s.buf = stage b 0 tail)
    (hlen : tail.length ≤ 200) : s.bufHead tail.length = tail := by
  refine List.ext_getElem (bufHead_length s hlen) fun j hj hj' => ?_
  have hin : 0 ≤ j ∧ j < 0 + tail.length := ⟨Nat.zero_le _, by omega⟩
  rw [← byteOrZero_of_lt _ j hj, byteOrZero, bufHead_getD, dif_pos ⟨hj', by omega⟩]
  simp only [h, stage_get _ _ _ _ (show j < 200 by omega), if_pos hin]
  exact byteOrZero_of_lt _ _ hj'

/-- A command line of the host program is one step that has the command's effect. -/
theorem step_command_effect {s : State} {i : Instr} {rest : List HostOp} (hwf : i.wf = true)
    (hp : s.pending = command i :: rest) (hbusy : s.busy = false) (hphase : s.phase ≠ .fault) :
    step s = .next (commandEffect i (s.setPending rest)) := by
  rw [step_command (decode_encode hwf) hp hbusy, exec_of_ne (by exact hphase)]

/-- The first two lines: the length, and INIT, which clears what any earlier computation has left. -/
theorem reaches_start {s : State} {n : BitVec 64} {rest : List HostOp}
    (hp : s.pending = wrOutlen n :: command .init :: rest) (hbusy : s.busy = false) (hphase : s.phase ≠ .fault) :
    Reaches s { s with
      outlen := n, lanes := zeroLanes, outrem := 0, lastk := 0, phase := .absorb, pending := rest } := by
  have hlength := step_write hp mapEntry_outlen hbusy
  have hinit := step_command_effect (i := .init) (rest := rest)
    (s := { s with outlen := n, pending := command .init :: rest }) rfl rfl hbusy hphase
  exact .head hlength (.head hinit (.refl _))

/-- A block of the message: its bytes are staged and absorbed. -/
theorem reaches_block {s : State} {blk : Block} {rest : List HostOp}
    (hp : s.pending = wbs 0 blk.toList ++ command .absorb :: rest) (hbusy : s.busy = false)
    (hphase : s.phase = .absorb) :
    Reaches s { s with
      buf := stage s.buf 0 blk.toList, lanes := permute (absorbXor s.lanes blk), roundCounter := none
      pending := rest } := by
  have hlen : 0 + blk.toList.length ≤ 200 := by rw [Vector.length_toList]; decide
  have hstage := reaches_wbs blk.toList 0 (command .absorb :: rest) s hlen hbusy hp
  have habsorb := step_command_effect (i := .absorb) (rest := rest)
    (s := { s with buf := stage s.buf 0 blk.toList, pending := command .absorb :: rest }) rfl rfl hbusy
    (phase_ne_fault_of_absorb hphase)
  rw [commandEffect_absorb_of_block (by exact hphase) (rateBlock_of_staged (by rfl))] at habsorb
  exact hstage.trans (.head habsorb (.refl _))

/-- The full blocks `ks` of the message in the host program. -/
def blockLines (m : List Byte) (ks : List Nat) : List HostOp :=
  ks.flatMap fun k => wbs 0 (messageBlock m k).toList ++ [command .absorb]

theorem blockLines_cons (m : List Byte) (k : Nat) (ks : List Nat) (rest : List HostOp) :
    blockLines m (k :: ks) ++ rest =
      wbs 0 (messageBlock m k).toList ++ command .absorb :: (blockLines m ks ++ rest) := by
  simp [blockLines]

theorem shakeProgram_append (m : List Byte) (n : BitVec 64) (rest : List HostOp) :
    shakeProgram m n ++ rest =
      wrOutlen n :: command .init :: (blockLines m (List.range (m.length / 168)) ++
        (wbs 0 (messageTail m) ++ command (.final (messageTail m).length) :: .squeezeLoop :: rest)) := by
  simp [shakeProgram, blockLines]

theorem reaches_blocks (m : List Byte) (ks : List Nat) {s : State} {rest : List HostOp}
    (hp : s.pending = blockLines m ks ++ rest) (hbusy : s.busy = false) (hphase : s.phase = .absorb) :
    ∃ b c, Reaches s { s with
      buf := b, lanes := ks.foldl (fun A k => permute (absorbXor A (messageBlock m k))) s.lanes
      roundCounter := c, pending := rest } := by
  induction ks generalizing s with
  | nil =>
    refine ⟨s.buf, s.roundCounter, ?_⟩
    rw [List.foldl_nil, ← show s.pending = rest from hp]
    exact .refl s
  | cons k ks ih =>
    have hblock := reaches_block (hp.trans (blockLines_cons m k ks rest)) hbusy hphase
    obtain ⟨b, c, hrest⟩ := ih (s := { s with
      buf := stage s.buf 0 (messageBlock m k).toList
      lanes := permute (absorbXor s.lanes (messageBlock m k)), roundCounter := none
      pending := blockLines m ks ++ rest }) rfl hbusy hphase
    exact ⟨b, c, hblock.trans hrest⟩

theorem length_messageTail (m : List Byte) : (messageTail m).length < 168 := by
  rw [messageTail, List.length_drop]; omega

/-- The tail is staged, and FINAL has its effect on it. -/
theorem reaches_final {s : State} {tail : List Byte} {rest : List HostOp} (hlen : tail.length < 168)
    (hp : s.pending = wbs 0 tail ++ command (.final tail.length) :: rest) (hbusy : s.busy = false)
    (hphase : s.phase = .absorb) :
    Reaches s (commandEffect (.final tail.length) { s with buf := stage s.buf 0 tail, pending := rest }) := by
  have hwf : (Instr.final tail.length).wf = true := decide_eq_true (by omega)
  have hstage := reaches_wbs tail 0 (command (.final tail.length) :: rest) s (by omega) hbusy hp
  exact hstage.trans (.head (step_command_effect hwf rfl hbusy (phase_ne_fault_of_absorb hphase)) (.refl _))

theorem commandEffect_final_of_tail {s : State} {tail : List Byte} (hphase : s.phase = .absorb)
    (hn : 0 ≤ sint64 s.outlen) (hlen : tail.length < 168) (htail : s.bufHead tail.length = tail) :
    commandEffect (.final tail.length) s =
      { s with
        buf := overlayBlock s.buf (pad tail), lanes := permute (absorbXor s.lanes (pad tail))
        roundCounter := none, outrem := s.outlen, lastk := 0
        phase := if 0 < sint64 s.outlen then .squeeze else .idle } := by
  rw [commandEffect_final_valid hphase hn hlen, htail]

/-- The host loop ends when it reads a phase other than SQUEEZE. -/
theorem reaches_squeezeLoop_exit {s : State} {rest : List HostOp} (hp : s.pending = .squeezeLoop :: rest)
    (hphase : s.phase ≠ .squeeze) :
    Reaches s ((s.setPending rest).respond statusOffset s.statusWord) := by
  have hstep := step_squeezeLoop hp
  rw [if_neg hphase] at hstep
  exact .head hstep (.refl _)

theorem outputBytes_status (r : List Response) (v : BitVec 64) :
    outputBytes (r ++ [⟨statusOffset, v⟩]) = outputBytes r := by
  rw [outputBytes_append, outputBytes_register v (by decide), List.append_nil]

theorem commandEffect_squeeze_outrem {s : State} (hphase : s.phase = .squeeze) :
    (commandEffect .squeeze s).outrem.toNat = s.outrem.toNat - 168 := by
  rcases Nat.lt_or_ge 168 s.outrem.toNat with hmore | hlast
  · rw [commandEffect_squeeze_more hphase hmore]
    exact BitVec.toNat_sub_of_le (by bv_omega)
  · rw [commandEffect_squeeze_last hphase hlast]
    exact (Nat.sub_eq_zero_of_le hlast).symm

/-- The lanes that SQUEEZE leaves give the bytes still missing; with none missing any lanes do. -/
theorem squeezeBytes_commandEffect {s : State} (hphase : s.phase = .squeeze) (fuel : Nat) :
    squeezeBytes fuel (commandEffect .squeeze s).lanes (s.outrem.toNat - 168) =
      squeezeBytes fuel (permute s.lanes) (s.outrem.toNat - 168) := by
  rcases Nat.lt_or_ge 168 s.outrem.toNat with hmore | hlast
  · rw [commandEffect_squeeze_more hphase hmore]
  · rw [Nat.sub_eq_zero_of_le hlast, squeezeBytes_none_needed, squeezeBytes_none_needed]

/-- The squeeze loop of the host reads what the squeeze loop of R150 emits, and ends in IDLE. -/
theorem reaches_squeezeLoop (fuel : Nat) {s : State} {rest : List HostOp}
    (hp : s.pending = .squeezeLoop :: rest) (hbusy : s.busy = false) (hfuel : s.outrem.toNat ≤ fuel)
    (hphase : s.phase = if 0 < s.outrem.toNat then .squeeze else .idle) :
    ∃ t, Reaches s t ∧ t.pending = rest ∧ t.phase = .idle ∧ t.outrem = 0 ∧
      outputBytes t.responses = outputBytes s.responses ++ squeezeBytes fuel s.lanes s.outrem.toNat := by
  induction fuel generalizing s with
  | zero =>
    have hzero : s.outrem.toNat = 0 := Nat.le_zero.mp hfuel
    have hidle : s.phase = .idle := by rw [hphase, hzero]; rfl
    refine ⟨_, reaches_squeezeLoop_exit hp (by rw [hidle]; decide), rfl, hidle, BitVec.eq_of_toNat_eq hzero, ?_⟩
    rw [squeezeBytes, List.append_nil]
    exact outputBytes_status _ _
  | succ fuel ih =>
    by_cases hzero : s.outrem.toNat = 0
    · obtain ⟨t, hreach, hpending, hidle, hrem, hout⟩ := ih hp hbusy (by omega) hphase
      refine ⟨t, hreach, hpending, hidle, hrem, ?_⟩
      rw [hout, hzero, squeezeBytes_none_needed, squeezeBytes_none_needed]
    · have hsqueeze : s.phase = .squeeze := by rw [hphase, if_pos (Nat.pos_of_ne_zero hzero)]
      obtain ⟨u, hturn, hupending, hubusy, huout, huphase, hulanes, hurem⟩ :=
        reaches_squeezeTurn hp hsqueeze hbusy
      have hleft : u.outrem.toNat = s.outrem.toNat - 168 := by
        rw [hurem, commandEffect_squeeze_outrem hsqueeze]
      obtain ⟨t, hreach, hpending, hidle, hrem, hout⟩ := ih hupending hubusy (by omega)
        (by rw [huphase, hurem, commandEffect_squeeze_phase hsqueeze])
      refine ⟨t, hturn.trans hreach, hpending, hidle, hrem, ?_⟩
      rw [hout, huout, hleft, hulanes, squeezeBytes_commandEffect hsqueeze, squeezeBytes_succ, List.append_assoc]

theorem shake128_of_nonneg {n : BitVec 64} (m : List Byte) (hn : 0 ≤ sint64 n) :
    shake128 m (sint64 n) = some (squeezeBytes n.toNat (absorbMessage m) n.toNat) := by
  rw [sint64_of_lt (toNat_lt_of_sint64_nonneg hn), shake128_natCast]

theorem shake128_of_negative {n : Int} (m : List Byte) (hn : n < 0) : shake128 m n = none := if_pos hn

/-- The state in which the host program reaches FINAL: the core is absorbing, and its lanes are those of
R150 after the full blocks. -/
theorem reaches_tail {m : List Byte} {n : BitVec 64} {s : State} {rest : List HostOp}
    (hphase : s.phase ≠ .fault) (hbusy : s.busy = false) (hp : s.pending = shakeProgram m n ++ rest) :
    ∃ u, Reaches s u ∧ u.phase = .absorb ∧ u.busy = false ∧ u.outlen = n ∧ u.responses = s.responses ∧
      u.pending =
        wbs 0 (messageTail m) ++ command (.final (messageTail m).length) :: .squeezeLoop :: rest ∧
      permute (absorbXor u.lanes (pad (messageTail m))) = absorbMessage m := by
  have hstart := reaches_start (hp.trans (shakeProgram_append m n rest)) hbusy hphase
  obtain ⟨b, c, hblocks⟩ := reaches_blocks m (List.range (m.length / 168))
    (s := { s with
      outlen := n, lanes := zeroLanes, outrem := 0, lastk := 0, phase := .absorb
      pending := blockLines m (List.range (m.length / 168)) ++
        (wbs 0 (messageTail m) ++ command (.final (messageTail m).length) :: .squeezeLoop :: rest) })
    rfl hbusy rfl
  exact ⟨_, hstart.trans hblocks, rfl, hbusy, rfl, rfl, rfl, rfl⟩

/-- Settles O46: the program reaches FINAL with the message absorbed up to its tail. With a length that is
not negative FINAL absorbs the tail and the host loop squeezes; otherwise FINAL faults and the loop ends. -/
theorem shakeHostSequenceComputesShake128 : Obligations.ShakeHostSequenceComputesShake128 := by
  intro m n s rest hphase hbusy hp
  obtain ⟨u, hreach, habsorb, hubusy, rfl, hresponses, hpending, hlanes⟩ := reaches_tail hphase hbusy hp
  have hlen := length_messageTail m
  have hfinal := reaches_final hlen hpending hubusy habsorb
  rcases Int.lt_or_le (sint64 u.outlen) 0 with hn | hn
  · rw [commandEffect_final_negative _ (by exact habsorb) (by exact hn)] at hfinal
    obtain ⟨k, hk⟩ := (hreach.trans hfinal).trans (reaches_squeezeLoop_exit rfl nofun)
    refine ⟨k, _, hk, rfl, fun hnonneg => absurd hn (Int.not_lt.mpr hnonneg), fun _ =>
      ⟨shake128_of_negative m hn, rfl, rfl, ?_⟩⟩
    exact (outputBytes_status _ _).trans (congrArg outputBytes hresponses)
  · have hloop_phase : (if 0 < sint64 u.outlen then Phase.squeeze else .idle) =
        if 0 < u.outlen.toNat then .squeeze else .idle := by
      simp only [sint64_of_lt (toNat_lt_of_sint64_nonneg hn), Int.natCast_pos]
    rw [commandEffect_final_of_tail (by exact habsorb) (by exact hn) hlen
      (bufHead_of_staged (by rfl) (by omega))] at hfinal
    obtain ⟨t, hloop, hrest, hidle, hrem, hout⟩ := reaches_squeezeLoop u.outlen.toNat
      (s := { u with
        buf := overlayBlock (stage u.buf 0 (messageTail m)) (pad (messageTail m))
        lanes := permute (absorbXor u.lanes (pad (messageTail m))), roundCounter := none
        outrem := u.outlen, lastk := 0, phase := if 0 < sint64 u.outlen then .squeeze else .idle
        pending := .squeezeLoop :: rest }) rfl hubusy le_rfl hloop_phase
    obtain ⟨k, hk⟩ := (hreach.trans hfinal).trans hloop
    refine ⟨k, t, hk, hrest, fun _ => ⟨hidle, hrem, _, shake128_of_nonneg m hn, ?_⟩,
      fun hneg => absurd hneg (Int.not_lt.mpr hn)⟩
    rw [hout, hlanes, hresponses]

end Sys2Proof.Machine
end
